-- ==== Sys2Proof/Word.lean ====
section
/-! DEFINITION. The word types of the machine (00_scope.md rules R6, R7) and the signed reading of a word. -/

namespace Sys2Proof

/-- A register, address or data value: XLEN = 32 bits (R6, R7). -/
abbrev Word := BitVec 32

/-- One byte of memory (R28). -/
abbrev Byte := BitVec 8

/-- A register index, 0 to 31 (R21): a 5-bit instruction field, so no index is out of range. -/
abbrev RegIdx := Fin 32

/-- `signed(v)` of R7: `v` if `v < 2^31`, else `v - 2^32`. -/
abbrev signed (v : Word) : Int := v.toInt

end Sys2Proof
end

