-- ==== Sys2Proof/Syntax.lean ====
section
/-! DEFINITION. The instructions: one constructor per row of spec/opcode_table.json (30_encoding.md rules R83, R94;
48_halt_and_unimplemented.md rules R230 to R232). An `imm` or `offset` is the 32-bit output of the immediate
generator (R8, R85); which values an encoding can hold is the matter of WellFormed.lean. -/

namespace Sys2Proof

/-- The rows of the opcode table. Operands are in the order destination, first source, second source, immediate. -/
inductive Instr where
  /-- LUI (R220). -/
  | lui (rd : RegIdx) (imm : Word)
  /-- AUIPC (R221). -/
  | auipc (rd : RegIdx) (imm : Word)
  /-- JAL (R210). -/
  | jal (rd : RegIdx) (offset : Word)
  /-- JALR (R211). -/
  | jalr (rd rs1 : RegIdx) (imm : Word)
  /-- BEQ (R201). -/
  | beq (rs1 rs2 : RegIdx) (offset : Word)
  /-- BNE (R202). -/
  | bne (rs1 rs2 : RegIdx) (offset : Word)
  /-- BLT (R203). -/
  | blt (rs1 rs2 : RegIdx) (offset : Word)
  /-- BGE (R204). -/
  | bge (rs1 rs2 : RegIdx) (offset : Word)
  /-- BLTU (R205). -/
  | bltu (rs1 rs2 : RegIdx) (offset : Word)
  /-- BGEU (R206). -/
  | bgeu (rs1 rs2 : RegIdx) (offset : Word)
  /-- LB (R181). -/
  | lb (rd rs1 : RegIdx) (imm : Word)
  /-- LH (R182). -/
  | lh (rd rs1 : RegIdx) (imm : Word)
  /-- LW (R183). -/
  | lw (rd rs1 : RegIdx) (imm : Word)
  /-- LBU (R184). -/
  | lbu (rd rs1 : RegIdx) (imm : Word)
  /-- LHU (R185). -/
  | lhu (rd rs1 : RegIdx) (imm : Word)
  /-- SB (R191). -/
  | sb (rs1 rs2 : RegIdx) (imm : Word)
  /-- SH (R192). -/
  | sh (rs1 rs2 : RegIdx) (imm : Word)
  /-- SW (R193). -/
  | sw (rs1 rs2 : RegIdx) (imm : Word)
  /-- ADDI (R141). -/
  | addi (rd rs1 : RegIdx) (imm : Word)
  /-- SLTI (R142). -/
  | slti (rd rs1 : RegIdx) (imm : Word)
  /-- SLTIU (R143). -/
  | sltiu (rd rs1 : RegIdx) (imm : Word)
  /-- XORI (R144). -/
  | xori (rd rs1 : RegIdx) (imm : Word)
  /-- ORI (R145). -/
  | ori (rd rs1 : RegIdx) (imm : Word)
  /-- ANDI (R146). -/
  | andi (rd rs1 : RegIdx) (imm : Word)
  /-- SLLI (R147). -/
  | slli (rd rs1 : RegIdx) (shamt : BitVec 5)
  /-- SRLI (R148). -/
  | srli (rd rs1 : RegIdx) (shamt : BitVec 5)
  /-- SRAI (R150). -/
  | srai (rd rs1 : RegIdx) (shamt : BitVec 5)
  /-- ADD (R161). -/
  | add (rd rs1 rs2 : RegIdx)
  /-- SUB (R162). -/
  | sub (rd rs1 rs2 : RegIdx)
  /-- SLL (R163). -/
  | sll (rd rs1 rs2 : RegIdx)
  /-- SLT (R164). -/
  | slt (rd rs1 rs2 : RegIdx)
  /-- SLTU (R165). -/
  | sltu (rd rs1 rs2 : RegIdx)
  /-- XOR (R166). -/
  | xor (rd rs1 rs2 : RegIdx)
  /-- SRL (R167). -/
  | srl (rd rs1 rs2 : RegIdx)
  /-- SRA (R168). -/
  | sra (rd rs1 rs2 : RegIdx)
  /-- OR (R169). -/
  | or (rd rs1 rs2 : RegIdx)
  /-- AND (R170). -/
  | and (rd rs1 rs2 : RegIdx)
  /-- HALT: the all-zero word (R122, R230). -/
  | halt
  /-- FENCE, a word with no handler (R231): `hi` is `w[31:15]`, `lo` is `w[11:7]`, kept for the fault record. -/
  | fence (hi : BitVec 17) (lo : BitVec 5)
  /-- FENCE.I, a word with no handler (R231): `hi` is `w[31:15]`, `lo` is `w[11:7]`, kept for the fault record. -/
  | fenceI (hi : BitVec 17) (lo : BitVec 5)
  /-- ECALL, a word with no handler (R232). -/
  | ecall
  /-- EBREAK, a word with no handler (R232). -/
  | ebreak
deriving DecidableEq, Repr

end Sys2Proof
end

