-- ==== Sys2Proof/WellFormed.lean ====
section
/-! DEFINITION. Which instruction terms an encoding can hold: the operand ranges of 30_encoding.md rules R86 to R91 and R104.
Register indices and shift amounts are in range by their types. -/

namespace Sys2Proof

/-- I and S immediates: signed, -2048 to 2047 (R87, R89). -/
def immIOk (imm : Word) : Bool := decide (-2048 ≤ signed imm) && decide (signed imm ≤ 2047)

/-- B offsets: even, -4096 to 4094 (R90). -/
def immBOk (offset : Word) : Bool :=
  decide (-4096 ≤ signed offset) && decide (signed offset ≤ 4094) && decide (offset.toNat % 2 = 0)

/-- J offsets: even, -1048576 to 1048574 (R88). -/
def immJOk (offset : Word) : Bool :=
  decide (-1048576 ≤ signed offset) && decide (signed offset ≤ 1048574) && decide (offset.toNat % 2 = 0)

/-- U immediates: a multiple of 4096 (R86). -/
def immUOk (imm : Word) : Bool := decide (imm.toNat % 4096 = 0)

/-- The instruction terms that some word of the spec's encoding stands for. -/
def WellFormed : Instr → Bool
  | .lui _ imm => immUOk imm
  | .auipc _ imm => immUOk imm
  | .jal _ offset => immJOk offset
  | .jalr _ _ imm => immIOk imm
  | .beq _ _ offset => immBOk offset
  | .bne _ _ offset => immBOk offset
  | .blt _ _ offset => immBOk offset
  | .bge _ _ offset => immBOk offset
  | .bltu _ _ offset => immBOk offset
  | .bgeu _ _ offset => immBOk offset
  | .lb _ _ imm => immIOk imm
  | .lh _ _ imm => immIOk imm
  | .lw _ _ imm => immIOk imm
  | .lbu _ _ imm => immIOk imm
  | .lhu _ _ imm => immIOk imm
  | .sb _ _ imm => immIOk imm
  | .sh _ _ imm => immIOk imm
  | .sw _ _ imm => immIOk imm
  | .addi _ _ imm => immIOk imm
  | .slti _ _ imm => immIOk imm
  | .sltiu _ _ imm => immIOk imm
  | .xori _ _ imm => immIOk imm
  | .ori _ _ imm => immIOk imm
  | .andi _ _ imm => immIOk imm
  | .slli _ _ _ => true
  | .srli _ _ _ => true
  | .srai _ _ _ => true
  | .add _ _ _ => true
  | .sub _ _ _ => true
  | .sll _ _ _ => true
  | .slt _ _ _ => true
  | .sltu _ _ _ => true
  | .xor _ _ _ => true
  | .srl _ _ _ => true
  | .sra _ _ _ => true
  | .or _ _ _ => true
  | .and _ _ _ => true
  | .halt => true
  | .fence _ _ => true
  | .fenceI _ _ => true
  | .ecall => true
  | .ebreak => true

end Sys2Proof
end

