-- ==== Sys2Proof/Decode.lean ====
section
/-! DEFINITION. The decoder, the immediate generator and the encoder (30_encoding.md rules R80 to R106), with the
byte-order helpers of 20_memory.md rule R56. The decoder is total and rejects by name. -/

namespace Sys2Proof

/-! ## Byte order (R56) -/

/-- The `n` little-endian bytes of a value, the least significant first. -/
def bytesLE : Nat → Nat → List Byte
  | 0, _ => []
  | n + 1, v => BitVec.ofNat 8 v :: bytesLE n (v / 256)

/-- The value of a list of little-endian bytes: the sum of byte `i` times `2^(8i)`. -/
def valueLE : List Byte → Nat
  | [] => 0
  | b :: bs => b.toNat + 256 * valueLE bs

/-! ## Fields (R81) -/

/-- `w[6:0]`. -/
def fieldOpcode (w : Word) : BitVec 7 := w.extractLsb' 0 7

/-- `w[11:7]`. -/
def fieldRd (w : Word) : RegIdx := (w.extractLsb' 7 5).toFin

/-- `w[14:12]`. -/
def fieldFunct3 (w : Word) : BitVec 3 := w.extractLsb' 12 3

/-- `w[19:15]`. -/
def fieldRs1 (w : Word) : RegIdx := (w.extractLsb' 15 5).toFin

/-- `w[24:20]`. -/
def fieldRs2 (w : Word) : RegIdx := (w.extractLsb' 20 5).toFin

/-- `w[24:20]` as a shift amount (R91). -/
def fieldShamt (w : Word) : BitVec 5 := w.extractLsb' 20 5

/-- `w[31:25]`. -/
def fieldFunct7 (w : Word) : BitVec 7 := w.extractLsb' 25 7

/-! ## The nine opcode classes (R83) -/

/-- The opcode classes that have a handler (R83). -/
inductive OpClass where
  | lui | auipc | jal | jalr | branch | load | store | opImm | op
deriving DecidableEq, Repr

/-- The 7-bit value of each class. UNVERIFIED (log 14): the spec takes the values from general
knowledge of RV32I. -/
def OpClass.code : OpClass → BitVec 7
  | .lui => 0b0110111#7
  | .auipc => 0b0010111#7
  | .jal => 0b1101111#7
  | .jalr => 0b1100111#7
  | .branch => 0b1100011#7
  | .load => 0b0000011#7
  | .store => 0b0100011#7
  | .opImm => 0b0010011#7
  | .op => 0b0110011#7

/-- The class of an opcode value, none for the 119 others (R233). -/
def opClass (op : BitVec 7) : Option OpClass :=
  if op = OpClass.lui.code then some .lui
  else if op = OpClass.auipc.code then some .auipc
  else if op = OpClass.jal.code then some .jal
  else if op = OpClass.jalr.code then some .jalr
  else if op = OpClass.branch.code then some .branch
  else if op = OpClass.load.code then some .load
  else if op = OpClass.store.code then some .store
  else if op = OpClass.opImm.code then some .opImm
  else if op = OpClass.op.code then some .op
  else none

/-- MISC-MEM, an opcode with no handler (R231). -/
def opcodeMiscMem : BitVec 7 := 0b0001111#7

/-- SYSTEM, an opcode with no handler (R232). -/
def opcodeSystem : BitVec 7 := 0b1110011#7

/-! ## The immediate generator (R85 to R92) -/

/-- U format: `w[31:12] ++ 000000000000` (R86). -/
def immU (w : Word) : Word := w.extractLsb' 12 20 ++ 0#12

/-- I format: `sext_12(w[31:20])` (R87). -/
def immI (w : Word) : Word := (w.extractLsb' 20 12).signExtend 32

/-- J format: `sext_21(w[31] ++ w[19:12] ++ w[20] ++ w[30:21] ++ 0)` (R88). -/
def immJ (w : Word) : Word :=
  (w.extractLsb' 31 1 ++ w.extractLsb' 12 8 ++ w.extractLsb' 20 1 ++ w.extractLsb' 21 10 ++ 0#1).signExtend 32

/-- S format: `sext_12(w[31:25] ++ w[11:7])` (R89). -/
def immS (w : Word) : Word := (w.extractLsb' 25 7 ++ w.extractLsb' 7 5).signExtend 32

/-- B format: `sext_13(w[31] ++ w[7] ++ w[30:25] ++ w[11:8] ++ 0)` (R90). -/
def immB (w : Word) : Word :=
  (w.extractLsb' 31 1 ++ w.extractLsb' 7 1 ++ w.extractLsb' 25 6 ++ w.extractLsb' 8 4 ++ 0#1).signExtend 32

/-- Shift-immediate form: `zext_5(w[24:20])` (R91). -/
def immShift (w : Word) : Word := (fieldShamt w).setWidth 32

/-- Whether an OP-IMM funct3 is that of a shift: `001` or `101` (R91). -/
def isShiftFunct3 (f3 : BitVec 3) : Bool := f3 == 0b001#3 || f3 == 0b101#3

/-- `ImmGen(w)`: the immediate of the word's format, no value for OP and for an opcode of no class (R85, R92). -/
def immGen (w : Word) : Option Word :=
  match opClass (fieldOpcode w) with
  | some .lui => some (immU w)
  | some .auipc => some (immU w)
  | some .jal => some (immJ w)
  | some .jalr => some (immI w)
  | some .branch => some (immB w)
  | some .load => some (immI w)
  | some .store => some (immS w)
  | some .opImm => some (if isShiftFunct3 (fieldFunct3 w) then immShift w else immI w)
  | some .op => none
  | none => none

/-! ## The dispatcher (R93 to R106) -/

/-- Why a word, or a list of bytes, stands for no row of the opcode table. Each of the first three raises
IllegalInstruction in the engine (R244). -/
inductive DecodeReject where
  /-- The opcode has no handler (R233), and the word is none of the table's four rows without one. -/
  | noHandlerForOpcode (op : BitVec 7)
  /-- The class has no handler for this funct3 (R94, R98). -/
  | noHandlerForFunct3 (cls : OpClass) (f3 : BitVec 3)
  /-- A funct7-disambiguated group has no handler for this funct7 (R95). -/
  | noHandlerForFunct7 (cls : OpClass) (f3 : BitVec 3) (f7 : BitVec 7)
  /-- The bytes are not exactly one 32-bit word (R80). -/
  | notOneWord (n : Nat)
deriving DecidableEq, Repr

/-- The funct3 level of BRANCH (R94). -/
def dispatchBranch (w : Word) : Except DecodeReject Instr :=
  match (fieldFunct3 w).toNat with
  | 0 => .ok (.beq (fieldRs1 w) (fieldRs2 w) (immB w))
  | 1 => .ok (.bne (fieldRs1 w) (fieldRs2 w) (immB w))
  | 4 => .ok (.blt (fieldRs1 w) (fieldRs2 w) (immB w))
  | 5 => .ok (.bge (fieldRs1 w) (fieldRs2 w) (immB w))
  | 6 => .ok (.bltu (fieldRs1 w) (fieldRs2 w) (immB w))
  | 7 => .ok (.bgeu (fieldRs1 w) (fieldRs2 w) (immB w))
  | _ => .error (.noHandlerForFunct3 .branch (fieldFunct3 w))

/-- The funct3 level of LOAD (R94). -/
def dispatchLoad (w : Word) : Except DecodeReject Instr :=
  match (fieldFunct3 w).toNat with
  | 0 => .ok (.lb (fieldRd w) (fieldRs1 w) (immI w))
  | 1 => .ok (.lh (fieldRd w) (fieldRs1 w) (immI w))
  | 2 => .ok (.lw (fieldRd w) (fieldRs1 w) (immI w))
  | 4 => .ok (.lbu (fieldRd w) (fieldRs1 w) (immI w))
  | 5 => .ok (.lhu (fieldRd w) (fieldRs1 w) (immI w))
  | _ => .error (.noHandlerForFunct3 .load (fieldFunct3 w))

/-- The funct3 level of STORE (R94). -/
def dispatchStore (w : Word) : Except DecodeReject Instr :=
  match (fieldFunct3 w).toNat with
  | 0 => .ok (.sb (fieldRs1 w) (fieldRs2 w) (immS w))
  | 1 => .ok (.sh (fieldRs1 w) (fieldRs2 w) (immS w))
  | 2 => .ok (.sw (fieldRs1 w) (fieldRs2 w) (immS w))
  | _ => .error (.noHandlerForFunct3 .store (fieldFunct3 w))

/-- The funct3 and funct7 levels of OP-IMM (R94, R95); SLLI ignores `w[31:25]` (R97, conflict C4). -/
def dispatchOpImm (w : Word) : Except DecodeReject Instr :=
  match (fieldFunct3 w).toNat with
  | 0 => .ok (.addi (fieldRd w) (fieldRs1 w) (immI w))
  | 1 => .ok (.slli (fieldRd w) (fieldRs1 w) (fieldShamt w))
  | 2 => .ok (.slti (fieldRd w) (fieldRs1 w) (immI w))
  | 3 => .ok (.sltiu (fieldRd w) (fieldRs1 w) (immI w))
  | 4 => .ok (.xori (fieldRd w) (fieldRs1 w) (immI w))
  | 6 => .ok (.ori (fieldRd w) (fieldRs1 w) (immI w))
  | 7 => .ok (.andi (fieldRd w) (fieldRs1 w) (immI w))
  | _ =>
    match (fieldFunct7 w).toNat with
    | 0x00 => .ok (.srli (fieldRd w) (fieldRs1 w) (fieldShamt w))
    | 0x20 => .ok (.srai (fieldRd w) (fieldRs1 w) (fieldShamt w))
    | _ => .error (.noHandlerForFunct7 .opImm (fieldFunct3 w) (fieldFunct7 w))

/-- The funct3 and funct7 levels of OP (R94, R95); the six instructions of R96 ignore `w[31:25]` (log 7). -/
def dispatchOp (w : Word) : Except DecodeReject Instr :=
  match (fieldFunct3 w).toNat with
  | 0 =>
    match (fieldFunct7 w).toNat with
    | 0x00 => .ok (.add (fieldRd w) (fieldRs1 w) (fieldRs2 w))
    | 0x20 => .ok (.sub (fieldRd w) (fieldRs1 w) (fieldRs2 w))
    | _ => .error (.noHandlerForFunct7 .op (fieldFunct3 w) (fieldFunct7 w))
  | 1 => .ok (.sll (fieldRd w) (fieldRs1 w) (fieldRs2 w))
  | 2 => .ok (.slt (fieldRd w) (fieldRs1 w) (fieldRs2 w))
  | 3 => .ok (.sltu (fieldRd w) (fieldRs1 w) (fieldRs2 w))
  | 4 => .ok (.xor (fieldRd w) (fieldRs1 w) (fieldRs2 w))
  | 6 => .ok (.or (fieldRd w) (fieldRs1 w) (fieldRs2 w))
  | 7 => .ok (.and (fieldRd w) (fieldRs1 w) (fieldRs2 w))
  | _ =>
    match (fieldFunct7 w).toNat with
    | 0x00 => .ok (.srl (fieldRd w) (fieldRs1 w) (fieldRs2 w))
    | 0x20 => .ok (.sra (fieldRd w) (fieldRs1 w) (fieldRs2 w))
    | _ => .error (.noHandlerForFunct7 .op (fieldFunct3 w) (fieldFunct7 w))

/-- The words of no class: the table's four rows without a handler are named, every other word is rejected by its
opcode (R231 to R233). -/
def dispatchNoClass (w : Word) : Except DecodeReject Instr :=
  if fieldOpcode w = opcodeMiscMem ∧ fieldFunct3 w = 0b000#3 then
    .ok (.fence (w.extractLsb' 15 17) (w.extractLsb' 7 5))
  else if fieldOpcode w = opcodeMiscMem ∧ fieldFunct3 w = 0b001#3 then
    .ok (.fenceI (w.extractLsb' 15 17) (w.extractLsb' 7 5))
  else if w = 0x00000073#32 then .ok .ecall
  else if w = 0x00100073#32 then .ok .ebreak
  else .error (.noHandlerForOpcode (fieldOpcode w))

/-- The decision tree of R106, with the rows that have no handler named as instructions of their own. -/
def dispatch (w : Word) : Except DecodeReject Instr :=
  match opClass (fieldOpcode w) with
  | some .lui => .ok (.lui (fieldRd w) (immU w))
  | some .auipc => .ok (.auipc (fieldRd w) (immU w))
  | some .jal => .ok (.jal (fieldRd w) (immJ w))
  | some .jalr =>
    if fieldFunct3 w = 0b000#3 then .ok (.jalr (fieldRd w) (fieldRs1 w) (immI w))
    else .error (.noHandlerForFunct3 .jalr (fieldFunct3 w))
  | some .branch => dispatchBranch w
  | some .load => dispatchLoad w
  | some .store => dispatchStore w
  | some .opImm => dispatchOpImm w
  | some .op => dispatchOp w
  | none => dispatchNoClass w

/-- The classification of the 2^32 words in the engine's order (R100): the zero word first, then the dispatcher. -/
def decode (w : Word) : Except DecodeReject Instr :=
  if w = 0#32 then .ok .halt else dispatch w

/-- Decoding of bytes as memory holds them, the first at the lowest address (R56, R80). -/
def decodeBytes (bs : List Byte) : Except DecodeReject Instr :=
  if bs.length = 4 then decode (BitVec.ofNat 32 (valueLE bs)) else .error (.notOneWord bs.length)

/-! ## The encoder (R82) -/

/-- A register index as a 5-bit field. -/
def regBits (r : RegIdx) : BitVec 5 := BitVec.ofFin r

/-- R format. -/
def encodeR (f7 : BitVec 7) (rs2 rs1 : RegIdx) (f3 : BitVec 3) (rd : RegIdx) (cls : OpClass) : Word :=
  f7 ++ regBits rs2 ++ regBits rs1 ++ f3 ++ regBits rd ++ cls.code

/-- I format. -/
def encodeI (imm : Word) (rs1 : RegIdx) (f3 : BitVec 3) (rd : RegIdx) (cls : OpClass) : Word :=
  imm.extractLsb' 0 12 ++ regBits rs1 ++ f3 ++ regBits rd ++ cls.code

/-- I-shift format. -/
def encodeShift (f7 : BitVec 7) (shamt : BitVec 5) (rs1 : RegIdx) (f3 : BitVec 3) (rd : RegIdx) : Word :=
  f7 ++ shamt ++ regBits rs1 ++ f3 ++ regBits rd ++ OpClass.opImm.code

/-- S format. -/
def encodeS (imm : Word) (rs2 rs1 : RegIdx) (f3 : BitVec 3) : Word :=
  imm.extractLsb' 5 7 ++ regBits rs2 ++ regBits rs1 ++ f3 ++ imm.extractLsb' 0 5 ++ OpClass.store.code

/-- B format. -/
def encodeB (offset : Word) (rs2 rs1 : RegIdx) (f3 : BitVec 3) : Word :=
  offset.extractLsb' 12 1 ++ offset.extractLsb' 5 6 ++ regBits rs2 ++ regBits rs1 ++ f3 ++
    offset.extractLsb' 1 4 ++ offset.extractLsb' 11 1 ++ OpClass.branch.code

/-- U format. -/
def encodeU (imm : Word) (rd : RegIdx) (cls : OpClass) : Word :=
  imm.extractLsb' 12 20 ++ regBits rd ++ cls.code

/-- J format. -/
def encodeJ (offset : Word) (rd : RegIdx) : Word :=
  offset.extractLsb' 20 1 ++ offset.extractLsb' 1 10 ++ offset.extractLsb' 11 1 ++ offset.extractLsb' 12 8 ++
    regBits rd ++ OpClass.jal.code

/-- A word of an opcode without a handler, from the bits the row leaves open. -/
def encodeOpen (hi : BitVec 17) (f3 : BitVec 3) (lo : BitVec 5) (op : BitVec 7) : Word :=
  hi ++ f3 ++ lo ++ op

/-- The word of an instruction (R82, R83, R94 to R98). Where the decoder ignores `w[31:25]` (R96, R97) the encoder
writes the standard `0000000`. -/
def encode : Instr → Word
  | .lui rd imm => encodeU imm rd .lui
  | .auipc rd imm => encodeU imm rd .auipc
  | .jal rd offset => encodeJ offset rd
  | .jalr rd rs1 imm => encodeI imm rs1 0b000#3 rd .jalr
  | .beq rs1 rs2 offset => encodeB offset rs2 rs1 0b000#3
  | .bne rs1 rs2 offset => encodeB offset rs2 rs1 0b001#3
  | .blt rs1 rs2 offset => encodeB offset rs2 rs1 0b100#3
  | .bge rs1 rs2 offset => encodeB offset rs2 rs1 0b101#3
  | .bltu rs1 rs2 offset => encodeB offset rs2 rs1 0b110#3
  | .bgeu rs1 rs2 offset => encodeB offset rs2 rs1 0b111#3
  | .lb rd rs1 imm => encodeI imm rs1 0b000#3 rd .load
  | .lh rd rs1 imm => encodeI imm rs1 0b001#3 rd .load
  | .lw rd rs1 imm => encodeI imm rs1 0b010#3 rd .load
  | .lbu rd rs1 imm => encodeI imm rs1 0b100#3 rd .load
  | .lhu rd rs1 imm => encodeI imm rs1 0b101#3 rd .load
  | .sb rs1 rs2 imm => encodeS imm rs2 rs1 0b000#3
  | .sh rs1 rs2 imm => encodeS imm rs2 rs1 0b001#3
  | .sw rs1 rs2 imm => encodeS imm rs2 rs1 0b010#3
  | .addi rd rs1 imm => encodeI imm rs1 0b000#3 rd .opImm
  | .slti rd rs1 imm => encodeI imm rs1 0b010#3 rd .opImm
  | .sltiu rd rs1 imm => encodeI imm rs1 0b011#3 rd .opImm
  | .xori rd rs1 imm => encodeI imm rs1 0b100#3 rd .opImm
  | .ori rd rs1 imm => encodeI imm rs1 0b110#3 rd .opImm
  | .andi rd rs1 imm => encodeI imm rs1 0b111#3 rd .opImm
  | .slli rd rs1 shamt => encodeShift 0b0000000#7 shamt rs1 0b001#3 rd
  | .srli rd rs1 shamt => encodeShift 0b0000000#7 shamt rs1 0b101#3 rd
  | .srai rd rs1 shamt => encodeShift 0b0100000#7 shamt rs1 0b101#3 rd
  | .add rd rs1 rs2 => encodeR 0b0000000#7 rs2 rs1 0b000#3 rd .op
  | .sub rd rs1 rs2 => encodeR 0b0100000#7 rs2 rs1 0b000#3 rd .op
  | .sll rd rs1 rs2 => encodeR 0b0000000#7 rs2 rs1 0b001#3 rd .op
  | .slt rd rs1 rs2 => encodeR 0b0000000#7 rs2 rs1 0b010#3 rd .op
  | .sltu rd rs1 rs2 => encodeR 0b0000000#7 rs2 rs1 0b011#3 rd .op
  | .xor rd rs1 rs2 => encodeR 0b0000000#7 rs2 rs1 0b100#3 rd .op
  | .srl rd rs1 rs2 => encodeR 0b0000000#7 rs2 rs1 0b101#3 rd .op
  | .sra rd rs1 rs2 => encodeR 0b0100000#7 rs2 rs1 0b101#3 rd .op
  | .or rd rs1 rs2 => encodeR 0b0000000#7 rs2 rs1 0b110#3 rd .op
  | .and rd rs1 rs2 => encodeR 0b0000000#7 rs2 rs1 0b111#3 rd .op
  | .halt => 0x00000000#32
  | .fence hi lo => encodeOpen hi 0b000#3 lo opcodeMiscMem
  | .fenceI hi lo => encodeOpen hi 0b001#3 lo opcodeMiscMem
  | .ecall => 0x00000073#32
  | .ebreak => 0x00100073#32

/-! ## The opcode table (spec/opcode_table.json) -/

/-- One row of the opcode table: a word selects the row when `(w AND mask) = value`. -/
structure TableRow where
  mnemonic : String
  mask : Word
  value : Word
deriving DecidableEq, Repr

/-- The rows that execute, in the table's order. -/
def executingRows : List TableRow :=
  [⟨"LUI", 0x0000007F#32, 0x00000037#32⟩,
   ⟨"AUIPC", 0x0000007F#32, 0x00000017#32⟩,
   ⟨"JAL", 0x0000007F#32, 0x0000006F#32⟩,
   ⟨"JALR", 0x0000707F#32, 0x00000067#32⟩,
   ⟨"BEQ", 0x0000707F#32, 0x00000063#32⟩,
   ⟨"BNE", 0x0000707F#32, 0x00001063#32⟩,
   ⟨"BLT", 0x0000707F#32, 0x00004063#32⟩,
   ⟨"BGE", 0x0000707F#32, 0x00005063#32⟩,
   ⟨"BLTU", 0x0000707F#32, 0x00006063#32⟩,
   ⟨"BGEU", 0x0000707F#32, 0x00007063#32⟩] ++
  [⟨"LB", 0x0000707F#32, 0x00000003#32⟩,
   ⟨"LH", 0x0000707F#32, 0x00001003#32⟩,
   ⟨"LW", 0x0000707F#32, 0x00002003#32⟩,
   ⟨"LBU", 0x0000707F#32, 0x00004003#32⟩,
   ⟨"LHU", 0x0000707F#32, 0x00005003#32⟩,
   ⟨"SB", 0x0000707F#32, 0x00000023#32⟩,
   ⟨"SH", 0x0000707F#32, 0x00001023#32⟩,
   ⟨"SW", 0x0000707F#32, 0x00002023#32⟩,
   ⟨"ADDI", 0x0000707F#32, 0x00000013#32⟩,
   ⟨"SLTI", 0x0000707F#32, 0x00002013#32⟩] ++
  [⟨"SLTIU", 0x0000707F#32, 0x00003013#32⟩,
   ⟨"XORI", 0x0000707F#32, 0x00004013#32⟩,
   ⟨"ORI", 0x0000707F#32, 0x00006013#32⟩,
   ⟨"ANDI", 0x0000707F#32, 0x00007013#32⟩,
   ⟨"SLLI", 0x0000707F#32, 0x00001013#32⟩,
   ⟨"SRLI", 0xFE00707F#32, 0x00005013#32⟩,
   ⟨"SRAI", 0xFE00707F#32, 0x40005013#32⟩,
   ⟨"ADD", 0xFE00707F#32, 0x00000033#32⟩,
   ⟨"SUB", 0xFE00707F#32, 0x40000033#32⟩,
   ⟨"SLL", 0x0000707F#32, 0x00001033#32⟩] ++
  [⟨"SLT", 0x0000707F#32, 0x00002033#32⟩,
   ⟨"SLTU", 0x0000707F#32, 0x00003033#32⟩,
   ⟨"XOR", 0x0000707F#32, 0x00004033#32⟩,
   ⟨"SRL", 0xFE00707F#32, 0x00005033#32⟩,
   ⟨"SRA", 0xFE00707F#32, 0x40005033#32⟩,
   ⟨"OR", 0x0000707F#32, 0x00006033#32⟩,
   ⟨"AND", 0x0000707F#32, 0x00007033#32⟩]

/-- The whole table in the order a reader tests it: the HALT row first, then the executing rows, then the four
informative rows of words without a handler (30_encoding.md, opening). -/
def opcodeTable : List TableRow :=
  [⟨"HALT", 0xFFFFFFFF#32, 0x00000000#32⟩] ++ executingRows ++
  [⟨"FENCE", 0x0000707F#32, 0x0000000F#32⟩,
   ⟨"FENCE.I", 0x0000707F#32, 0x0000100F#32⟩,
   ⟨"ECALL", 0xFFFFFFFF#32, 0x00000073#32⟩,
   ⟨"EBREAK", 0xFFFFFFFF#32, 0x00100073#32⟩]

/-- The mnemonic of the row an instruction stands for. -/
def Instr.mnemonic : Instr → String
  | .lui .. => "LUI"
  | .auipc .. => "AUIPC"
  | .jal .. => "JAL"
  | .jalr .. => "JALR"
  | .beq .. => "BEQ"
  | .bne .. => "BNE"
  | .blt .. => "BLT"
  | .bge .. => "BGE"
  | .bltu .. => "BLTU"
  | .bgeu .. => "BGEU"
  | .lb .. => "LB"
  | .lh .. => "LH"
  | .lw .. => "LW"
  | .lbu .. => "LBU"
  | .lhu .. => "LHU"
  | .sb .. => "SB"
  | .sh .. => "SH"
  | .sw .. => "SW"
  | .addi .. => "ADDI"
  | .slti .. => "SLTI"
  | .sltiu .. => "SLTIU"
  | .xori .. => "XORI"
  | .ori .. => "ORI"
  | .andi .. => "ANDI"
  | .slli .. => "SLLI"
  | .srli .. => "SRLI"
  | .srai .. => "SRAI"
  | .add .. => "ADD"
  | .sub .. => "SUB"
  | .sll .. => "SLL"
  | .slt .. => "SLT"
  | .sltu .. => "SLTU"
  | .xor .. => "XOR"
  | .srl .. => "SRL"
  | .sra .. => "SRA"
  | .or .. => "OR"
  | .and .. => "AND"
  | .halt => "HALT"
  | .fence .. => "FENCE"
  | .fenceI .. => "FENCE.I"
  | .ecall => "ECALL"
  | .ebreak => "EBREAK"

/-- Whether the hardware has a handler, or the engine a stop, for the instruction (R83, R122); the four others raise
IllegalInstruction (R231, R232). -/
def Instr.hasHandler : Instr → Bool
  | .lui .. => true
  | .auipc .. => true
  | .jal .. => true
  | .jalr .. => true
  | .beq .. => true
  | .bne .. => true
  | .blt .. => true
  | .bge .. => true
  | .bltu .. => true
  | .bgeu .. => true
  | .lb .. => true
  | .lh .. => true
  | .lw .. => true
  | .lbu .. => true
  | .lhu .. => true
  | .sb .. => true
  | .sh .. => true
  | .sw .. => true
  | .addi .. => true
  | .slti .. => true
  | .sltiu .. => true
  | .xori .. => true
  | .ori .. => true
  | .andi .. => true
  | .slli .. => true
  | .srli .. => true
  | .srai .. => true
  | .add .. => true
  | .sub .. => true
  | .sll .. => true
  | .slt .. => true
  | .sltu .. => true
  | .xor .. => true
  | .srl .. => true
  | .sra .. => true
  | .or .. => true
  | .and .. => true
  | .halt => true
  | .fence .. => false
  | .fenceI .. => false
  | .ecall => false
  | .ebreak => false

/-- Whether the hardware does something with a word other than raise IllegalInstruction (R100). -/
def hasHandler (w : Word) : Bool :=
  match decode w with
  | .ok i => i.hasHandler
  | .error _ => false

/-! ## The host's way in -/

/-- The instruction the decoder reads from the table word `w` of `nbits` bits: its bytes laid out as memory holds
them (R56), every bit from `nbits` on zero. -/
def decodeTableWord (nbits w : Nat) : Option Instr :=
  (decodeBytes (bytesLE 4 (w % 2 ^ nbits))).toOption

end Sys2Proof
end

