-- ==== Sys2Proof/Config.lean ====
section
/-! DEFINITION. The construction parameters of 00_scope.md rule R6: what an implementation fixes before the run and no
instruction can read or change. The spec leaves no value free after which the machine goes on, so there is no
free value here. -/

namespace Sys2Proof

/-- The construction parameters (R6, R31), all but the image, which construction consumes. -/
structure Config where
  /-- `CAPACITY`: the number of memory bytes, 0 to 2^32 (R6, R28). -/
  capacity : Nat
  /-- `STRICT_ALIGN`: natural alignment is enforced (R52). Open parameter. -/
  strictAlign : Bool
  /-- `ENTRYPOINT` (R274). Open parameter. -/
  entrypoint : Word
  /-- `START_OFFSET`: where the image is copied to, default 0 (R272). -/
  startOffset : Word := 0
  /-- `HALT_SENTINEL` (R121). Open parameter. -/
  haltSentinel : Word
  /-- `SP_INIT`: the initial stack pointer, by default `CAPACITY mod 2^32` (R273). -/
  spInit : Word := BitVec.ofNat 32 capacity
  /-- `DEBUG_TRACE`: no effect on any state (R127). -/
  debugTrace : Bool := false
  /-- `EXT_M`: accepted, no effect (R234). -/
  extM : Bool := false
  /-- `EXT_A`: accepted, no effect (R234). -/
  extA : Bool := false
  /-- `EXT_F`: accepted, no effect (R234). -/
  extF : Bool := false
deriving DecidableEq, Repr

/-- The range R6 gives `CAPACITY`. -/
abbrev Config.wf (c : Config) : Prop := c.capacity ≤ 2 ^ 32

/-- The configuration the test vectors of 95_test_vectors.md use: `CAPACITY` and `START_OFFSET` are the reference
configuration of R285. `STRICT_ALIGN`, `ENTRYPOINT` and `HALT_SENTINEL` are open in the spec.
DESIGN CHOICE (log 1): their values here are those of 95_test_vectors.md; unsafe for a claim that rests on them. -/
def Config.reference : Config where
  capacity := 65536
  strictAlign := true
  entrypoint := 0
  haltSentinel := 0xFFFF0000#32

/-- The same parameters with other debug and extension toggles (R127, R234). -/
def Config.withToggles (c : Config) (debug m a f : Bool) : Config :=
  { c with debugTrace := debug, extM := m, extA := a, extF := f }

end Sys2Proof
end

