-- ==== Sys2Proof/Machine/State.lean ====
section
/-! DEFINITION. The state of the machine (10_state.md rules R20 to R34), the fault record (60_exceptions.md rule R241), the
run status, and the state after reset. -/

namespace Sys2Proof.Machine

/-- What an access is for (R241). -/
inductive AccessKind where
  | fetch | load | store
deriving DecidableEq, Repr

/-- The three access widths (R50). -/
inductive Width where
  | byte | half | word
deriving DecidableEq, Repr

/-- A fault and its record (R240, R241). A meaning, the fetch and the dispatcher TAKE a run-time fault: the step goes to
a next state whose status is `faulted` with this record (R246), so no step of this model ends in `Host.Outcome.fault`.
DESIGN CHOICE (log 5): the fields are those of R241, the spec's own decision D11. -/
inductive Fault where
  /-- An access whose last byte lies at or past `CAPACITY` (R242). Raised by the memory subsystem, taken by the fetch and
  by every load and store. `instr` is the instruction word, none for a fetch. Safe: the run ends, nothing is written. -/
  | outOfBounds (pc addr : Word) (width : Width) (access : AccessKind) (instr : Option Word)
  /-- A misaligned access under strict alignment (R243). Raised by the memory subsystem, taken by the fetch and by the
  halfword and word loads and stores. Safe: the run ends, nothing is written. -/
  | unalignedAccess (pc addr : Word) (width : Width) (access : AccessKind) (instr : Option Word)
  /-- A non-zero word with no handler (R244). Raised by the dispatcher and by FENCE, FENCE.I, ECALL and EBREAK.
  Safe: the run ends, nothing is written. -/
  | illegalInstruction (pc instr : Word)
  /-- The image cannot be read or does not fit (R245). Raised by construction only, which then makes no machine. Safe. -/
  | loadFailure
deriving DecidableEq, Repr

/-- Why a step has no meaning. -/
inductive Refusal where
  /-- Raised by an arm of `exec` whose instruction has no meaning yet: none in this model. Safe. -/
  | notModelled (mnemonic : String)
deriving DecidableEq, Repr

/-- The two causes of Halted (R29). -/
inductive HaltCause where
  | zeroWord | sentinelReached
deriving DecidableEq, Repr

/-- The run status (R29); `halted` and `faulted` are terminal. -/
inductive Status where
  | running
  | halted (cause : HaltCause)
  | faulted (record : Fault)
deriving DecidableEq, Repr

/-- The memory bytes `M[0 .. CAPACITY-1]` (R28) as address and byte pairs, in the canonical form `Memory.wf` of
Machine/Ops.lean. -/
abbrev Memory := List Host.Cell

/-- The whole state of the machine (R20). -/
structure State where
  /-- `x[1] .. x[31]` (R21); entry `i` holds `x[i+1]`. `x[0]` has no storage (R22). -/
  regs : Vector Word 31
  /-- The address of the instruction being executed (R25). -/
  pc : Word
  /-- The address that becomes `pc` on the following cycle (R25). -/
  pcNext : Word
  /-- The memory (R28). -/
  mem : Memory
  /-- The run status (R29). -/
  status : Status
  /-- The construction parameters (R6): fixed for the run, carried here so that every claim is about every value of
  them (log 1). -/
  cfg : Config
deriving DecidableEq, Repr

/-- The state at the end of construction over a given memory (R34, R271 steps 3 to 5). -/
def State.initial (c : Config) (m : Memory) : State where
  regs := ((Vector.replicate 31 0#32).set 0 c.haltSentinel).set 1 c.spInit
  pc := c.entrypoint
  pcNext := c.entrypoint
  mem := m
  status := .running
  cfg := c

/-- The machine right after reset (R34, R270) in the reference configuration, with an empty image: memory lists nothing,
`x[1]` is the sentinel, `x[2]` is `SP_INIT`, `pc` and `pc_next` are the entry point. The values of the open parameters
are DESIGN CHOICE (log 1). -/
def State.reset : State := State.initial Config.reference []

end Sys2Proof.Machine
end

