-- ==== Sys2Proof/Machine/Ops.lean ====
section
/-! DEFINITION. The named operations over registers, pc pair and memory (10_state.md rules R22 to R26, 20_memory.md rules R50
to R57), the ALU (41_alu_immediate.md rule R140), and taking a fault (60_exceptions.md rules R246, R247). There is no
return from a fault (R249), so there is no operation for one. -/

namespace Sys2Proof.Machine

/-! ## Register file -/

/-- `read(index)`: `x[0]` is always 0 (R22). -/
def State.readReg (s : State) (r : RegIdx) : Word :=
  if h : r.val = 0 then 0#32 else s.regs[r.val - 1]'(by omega)

/-- `write(index, value)`: a write to `x[0]` is accepted and discarded (R23). -/
def State.writeReg (s : State) (r : RegIdx) (v : Word) : State :=
  if h : r.val = 0 then s else { s with regs := s.regs.set (r.val - 1) v (by omega) }

/-! ## Program counter pair -/

/-- A handler's override of the next address (R25, R124). -/
def State.setPcNext (s : State) (target : Word) : State := { s with pcNext := target }

/-- The start of a cycle: `pc <- pc_next`, `pc_next <- pc + 4`, modulo 2^32 (R26, R120 steps 2 and 3). -/
def State.advance (s : State) : State := { s with pc := s.pcNext, pcNext := s.pcNext + 4#32 }

/-- A change of the run status (R29). -/
def State.setStatus (s : State) (st : Status) : State := { s with status := st }

/-- A change of the memory (R28). -/
def State.setMem (s : State) (m : Memory) : State := { s with mem := m }

/-! ## Memory bytes -/

/-- What an address that is not listed reads as: 0x00 (R34, R275).
DESIGN CHOICE of the spec, decision D3 (log 3); unsafe for a claim that rests on it. -/
def Memory.fill : Byte := 0#8

/-- The canonical form: addresses strictly rising, no entry equal to the fill. -/
abbrev Memory.wf (m : Memory) : Prop :=
  m.Pairwise (fun c d => c.1 < d.1) ∧ ∀ c ∈ m, c.2 ≠ Memory.fill

/-- Every listed address exists: it is below the capacity (R28, R61). -/
abbrev Memory.within (m : Memory) (capacity : Nat) : Prop := ∀ c ∈ m, c.1 < capacity

/-- The byte at an address (R28). -/
def Memory.get : Memory → Nat → Byte
  | [], _ => Memory.fill
  | c :: rest, a => if c.1 = a then c.2 else Memory.get rest a

/-- The memory with an address no longer listed. -/
def Memory.erase (m : Memory) (a : Nat) : Memory := m.filter (fun c => c.1 != a)

/-- A cell put at its place in rising order. -/
def Memory.insertCell : Memory → Nat → Byte → Memory
  | [], a, b => [(a, b)]
  | c :: rest, a, b => if a < c.1 then (a, b) :: c :: rest else c :: Memory.insertCell rest a b

/-- `M[a] <- b`: keeps the canonical form; writing the fill removes the entry. -/
def Memory.set (m : Memory) (a : Nat) (b : Byte) : Memory :=
  if b = Memory.fill then Memory.erase m a else Memory.insertCell (Memory.erase m a) a b

/-- `n` bytes from an address upwards. -/
def Memory.getBytes (m : Memory) : Nat → Nat → List Byte
  | _, 0 => []
  | a, n + 1 => Memory.get m a :: Memory.getBytes m (a + 1) n

/-- A list of bytes written from an address upwards (a store, or the image of R272). -/
def Memory.setBytes (m : Memory) : Nat → List Byte → Memory
  | _, [] => m
  | a, b :: bs => Memory.setBytes (Memory.set m a b) (a + 1) bs

/-! ## The memory subsystem -/

/-- The number of bytes of a width (R50). -/
def Width.bytes : Width → Nat
  | .byte => 1
  | .half => 2
  | .word => 4

/-- The contract common to reads and writes, in order: the alignment check (R52), then the bounds check with an unbounded
sum (R51, R53). The fault's record is R241's. -/
def State.checkAccess (s : State) (addr : Word) (width : Width) (access : AccessKind) (instr : Option Word) :
    Except Fault Unit :=
  if s.cfg.strictAlign = true ∧ addr.toNat % width.bytes ≠ 0 then
    .error (.unalignedAccess s.pc addr width access instr)
  else if s.cfg.capacity < addr.toNat + width.bytes then
    .error (.outOfBounds s.pc addr width access instr)
  else .ok ()

/-- `MemRead(addr, n)`: the checks, then the `n` bytes assembled little-endian (R54, R56). -/
def State.memRead (s : State) (addr : Word) (width : Width) (access : AccessKind) (instr : Option Word) :
    Except Fault Word :=
  match s.checkAccess addr width access instr with
  | .error f => .error f
  | .ok _ => .ok (BitVec.ofNat 32 (valueLE (Memory.getBytes s.mem addr.toNat width.bytes)))

/-- `MemWrite(addr, n, v)`: the checks, then the low `8n` bits of `v` as `n` little-endian bytes; a failed check writes
nothing (R55). -/
def State.memWrite (s : State) (addr : Word) (width : Width) (v : Word) (instr : Option Word) :
    Except Fault State :=
  match s.checkAccess addr width .store instr with
  | .error f => .error f
  | .ok _ => .ok (s.setMem (Memory.setBytes s.mem addr.toNat (bytesLE width.bytes v.toNat)))

/-- Instruction fetch: `MemRead(pc, 4)` through the same subsystem (R60). -/
def State.fetch (s : State) : Except Fault Word := s.memRead s.pc .word .fetch none

/-! ## Taking a fault -/

/-- Fault entry (R246): the status becomes Faulted(record) and nothing else changes; `pc` and `pc_next` are already those
of the faulting cycle (R247, R129). -/
def State.takeFault (s : State) (f : Fault) : State := s.setStatus (.faulted f)

/-- The fault of a word that has no handler (R244). -/
def State.takeIllegal (s : State) (w : Word) : State := s.takeFault (.illegalInstruction s.pc w)

/-- The kind of a fault as the ordinal the spec labels it with (R251): a label, not a register. -/
def Fault.ordinal : Fault → Nat
  | .outOfBounds .. => 1
  | .unalignedAccess .. => 2
  | .illegalInstruction .. => 3
  | .loadFailure => 4

/-! ## The ALU -/

/-- The ten operations of the ALU (R140). -/
inductive AluOp where
  | add | sub | sll | slt | sltu | xor | srl | sra | or | and
deriving DecidableEq, Repr

/-- `amount AND 0x1F` (R140). -/
def shiftAmount (b : Word) : Nat := b.toNat % 32

end Sys2Proof.Machine
end

