-- ==== Sys2Proof/Machine/Flags.lean ====
section
/-! DEFINITION. The hardware has no flag and no condition code (10_state.md rule R30). What other machines compute into flags it
computes as comparison results: a 0 or 1 written to `rd`, or the condition of a branch. -/

namespace Sys2Proof.Machine

/-- `signed(a) < signed(b)` (R140, R203). -/
def ltSigned (a b : Word) : Bool := decide (signed a < signed b)

/-- `a < b` as unsigned (R140, R205). -/
def ltUnsigned (a b : Word) : Bool := decide (a.toNat < b.toNat)

/-- A comparison result as a register value: 1 or 0 (R30). -/
def boolWord (c : Bool) : Word := if c then 1#32 else 0#32

/-- The six branch conditions (R201 to R206). -/
inductive BranchCond where
  | eq | ne | lt | ge | ltu | geu
deriving DecidableEq, Repr

/-- Whether a branch is taken (R201 to R206). -/
def BranchCond.holds : BranchCond → Word → Word → Bool
  | .eq, a, b => decide (a = b)
  | .ne, a, b => !decide (a = b)
  | .lt, a, b => ltSigned a b
  | .ge, a, b => !ltSigned a b
  | .ltu, a, b => ltUnsigned a b
  | .geu, a, b => !ltUnsigned a b

/-- The ALU: a pure function of two operands and an operation (R140). UNVERIFIED (log 14): the spec takes the operation
each mnemonic names from general knowledge of RV32I. -/
def alu : AluOp → Word → Word → Word
  | .add, a, b => a + b
  | .sub, a, b => a - b
  | .sll, a, b => a <<< shiftAmount b
  | .slt, a, b => boolWord (ltSigned a b)
  | .sltu, a, b => boolWord (ltUnsigned a b)
  | .xor, a, b => a ^^^ b
  | .srl, a, b => a >>> shiftAmount b
  | .sra, a, b => a.sshiftRight (shiftAmount b)
  | .or, a, b => a ||| b
  | .and, a, b => a &&& b

end Sys2Proof.Machine
end

