-- ==== Sys2Proof/Machine/Operands.lean ====
section
/-! DEFINITION. The operand forms (30_encoding.md rule R104; 43_loads.md R180; 44_stores.md R190; 45_branches.md R200;
46_jumps.md R210, R211) and the shared shapes of the meanings. Sources are read before a destination is written (R9). -/

namespace Sys2Proof.Machine

/-! ## Addresses and targets -/

/-- The effective address of a load or store: `x[rs1] + imm` modulo 2^32 (R180, R190). -/
def State.effAddr (s : State) (rs1 : RegIdx) (imm : Word) : Word := s.readReg rs1 + imm

/-- A target relative to the instruction's own address, modulo 2^32 (R200, R210, R221). -/
def State.pcRel (s : State) (offset : Word) : Word := s.pc + offset

/-- The target of JALR: the sum with bit 0 cleared (R211). -/
def State.jalrTarget (s : State) (rs1 : RegIdx) (imm : Word) : Word := (s.readReg rs1 + imm) &&& 0xFFFFFFFE#32

/-- The link value: the address of the following instruction (R210, R211). -/
def State.linkValue (s : State) : Word := s.pc + 4#32

/-! ## Extension of a loaded value (R8) -/

/-- `sext_8`. -/
def sextByte (v : Word) : Word := (v.setWidth 8).signExtend 32

/-- `sext_16`. -/
def sextHalf (v : Word) : Word := (v.setWidth 16).signExtend 32

/-- `zext_8`. -/
def zextByte (v : Word) : Word := (v.setWidth 8).setWidth 32

/-- `zext_16`. -/
def zextHalf (v : Word) : Word := (v.setWidth 16).setWidth 32

/-! ## Shared shapes of the meanings -/

/-- OP-IMM: register and immediate into `rd` (R149). -/
def State.aluImm (s : State) (op : AluOp) (rd rs1 : RegIdx) (imm : Word) : State :=
  s.writeReg rd (alu op (s.readReg rs1) imm)

/-- OP: two registers into `rd` (R160). -/
def State.aluReg (s : State) (op : AluOp) (rd rs1 rs2 : RegIdx) : State :=
  s.writeReg rd (alu op (s.readReg rs1) (s.readReg rs2))

/-- A load: the read, then the write of the extended value; a fault of the read is taken and `rd` is not written (R180). -/
def State.loadInto (s : State) (w : Word) (width : Width) (extend : Word → Word) (rd rs1 : RegIdx) (imm : Word) : State :=
  match s.memRead (s.effAddr rs1 imm) width .load (some w) with
  | .error f => s.takeFault f
  | .ok v => s.writeReg rd (extend v)

/-- A store: the write of the low bits of `x[rs2]`; a fault of the write is taken and no byte changes (R190). -/
def State.storeFrom (s : State) (w : Word) (width : Width) (rs1 rs2 : RegIdx) (imm : Word) : State :=
  match s.memWrite (s.effAddr rs1 imm) width (s.readReg rs2) (some w) with
  | .error f => s.takeFault f
  | .ok t => t

/-- A conditional branch: `pc_next` is overridden if the condition holds (R200). -/
def State.branchIf (s : State) (c : BranchCond) (rs1 rs2 : RegIdx) (offset : Word) : State :=
  if c.holds (s.readReg rs1) (s.readReg rs2) then s.setPcNext (s.pcRel offset) else s

end Sys2Proof.Machine
end

