-- ==== Sys2Proof/Machine/AluImm.lean ====
section
/-! DEFINITION. The register-immediate instructions (41_alu_immediate.md rules R141 to R150). -/

namespace Sys2Proof.Machine

/-- ADDI (R141). -/
def execAddi (rd rs1 : RegIdx) (imm : Word) (s : State) : Host.Outcome State Fault Refusal :=
  .next (s.aluImm .add rd rs1 imm)

/-- SLTI (R142). -/
def execSlti (rd rs1 : RegIdx) (imm : Word) (s : State) : Host.Outcome State Fault Refusal :=
  .next (s.aluImm .slt rd rs1 imm)

/-- SLTIU (R143). -/
def execSltiu (rd rs1 : RegIdx) (imm : Word) (s : State) : Host.Outcome State Fault Refusal :=
  .next (s.aluImm .sltu rd rs1 imm)

/-- XORI (R144). -/
def execXori (rd rs1 : RegIdx) (imm : Word) (s : State) : Host.Outcome State Fault Refusal :=
  .next (s.aluImm .xor rd rs1 imm)

/-- ORI (R145). -/
def execOri (rd rs1 : RegIdx) (imm : Word) (s : State) : Host.Outcome State Fault Refusal :=
  .next (s.aluImm .or rd rs1 imm)

/-- ANDI (R146). -/
def execAndi (rd rs1 : RegIdx) (imm : Word) (s : State) : Host.Outcome State Fault Refusal :=
  .next (s.aluImm .and rd rs1 imm)

/-- SLLI (R147): the amount is `zext_5(w[24:20])`. -/
def execSlli (rd rs1 : RegIdx) (shamt : BitVec 5) (s : State) : Host.Outcome State Fault Refusal :=
  .next (s.aluImm .sll rd rs1 (shamt.setWidth 32))

/-- SRLI (R148): the amount is `zext_5(w[24:20])`. -/
def execSrli (rd rs1 : RegIdx) (shamt : BitVec 5) (s : State) : Host.Outcome State Fault Refusal :=
  .next (s.aluImm .srl rd rs1 (shamt.setWidth 32))

/-- SRAI (R150): the amount is `zext_5(w[24:20])`. -/
def execSrai (rd rs1 : RegIdx) (shamt : BitVec 5) (s : State) : Host.Outcome State Fault Refusal :=
  .next (s.aluImm .sra rd rs1 (shamt.setWidth 32))

end Sys2Proof.Machine
end

