-- ==== Sys2Proof/Machine/AluReg.lean ====
section
/-! DEFINITION. The register-register instructions (42_alu_register.md rules R160 to R170). -/

namespace Sys2Proof.Machine

/-- ADD (R161). -/
def execAdd (rd rs1 rs2 : RegIdx) (s : State) : Host.Outcome State Fault Refusal :=
  .next (s.aluReg .add rd rs1 rs2)

/-- SUB (R162). -/
def execSub (rd rs1 rs2 : RegIdx) (s : State) : Host.Outcome State Fault Refusal :=
  .next (s.aluReg .sub rd rs1 rs2)

/-- SLL (R163). -/
def execSll (rd rs1 rs2 : RegIdx) (s : State) : Host.Outcome State Fault Refusal :=
  .next (s.aluReg .sll rd rs1 rs2)

/-- SLT (R164). -/
def execSlt (rd rs1 rs2 : RegIdx) (s : State) : Host.Outcome State Fault Refusal :=
  .next (s.aluReg .slt rd rs1 rs2)

/-- SLTU (R165). -/
def execSltu (rd rs1 rs2 : RegIdx) (s : State) : Host.Outcome State Fault Refusal :=
  .next (s.aluReg .sltu rd rs1 rs2)

/-- XOR (R166). -/
def execXor (rd rs1 rs2 : RegIdx) (s : State) : Host.Outcome State Fault Refusal :=
  .next (s.aluReg .xor rd rs1 rs2)

/-- SRL (R167). -/
def execSrl (rd rs1 rs2 : RegIdx) (s : State) : Host.Outcome State Fault Refusal :=
  .next (s.aluReg .srl rd rs1 rs2)

/-- SRA (R168). -/
def execSra (rd rs1 rs2 : RegIdx) (s : State) : Host.Outcome State Fault Refusal :=
  .next (s.aluReg .sra rd rs1 rs2)

/-- OR (R169). -/
def execOr (rd rs1 rs2 : RegIdx) (s : State) : Host.Outcome State Fault Refusal :=
  .next (s.aluReg .or rd rs1 rs2)

/-- AND (R170). -/
def execAnd (rd rs1 rs2 : RegIdx) (s : State) : Host.Outcome State Fault Refusal :=
  .next (s.aluReg .and rd rs1 rs2)

end Sys2Proof.Machine
end

