-- ==== Sys2Proof/Machine/Branches.lean ====
section
/-! DEFINITION. The conditional branches (45_branches.md rules R200 to R206). Targets are not checked (R200). -/

namespace Sys2Proof.Machine

/-- BEQ (R201). -/
def execBeq (rs1 rs2 : RegIdx) (offset : Word) (s : State) : Host.Outcome State Fault Refusal :=
  .next (s.branchIf .eq rs1 rs2 offset)

/-- BNE (R202). -/
def execBne (rs1 rs2 : RegIdx) (offset : Word) (s : State) : Host.Outcome State Fault Refusal :=
  .next (s.branchIf .ne rs1 rs2 offset)

/-- BLT (R203). -/
def execBlt (rs1 rs2 : RegIdx) (offset : Word) (s : State) : Host.Outcome State Fault Refusal :=
  .next (s.branchIf .lt rs1 rs2 offset)

/-- BGE (R204). -/
def execBge (rs1 rs2 : RegIdx) (offset : Word) (s : State) : Host.Outcome State Fault Refusal :=
  .next (s.branchIf .ge rs1 rs2 offset)

/-- BLTU (R205). -/
def execBltu (rs1 rs2 : RegIdx) (offset : Word) (s : State) : Host.Outcome State Fault Refusal :=
  .next (s.branchIf .ltu rs1 rs2 offset)

/-- BGEU (R206). -/
def execBgeu (rs1 rs2 : RegIdx) (offset : Word) (s : State) : Host.Outcome State Fault Refusal :=
  .next (s.branchIf .geu rs1 rs2 offset)

end Sys2Proof.Machine
end

