-- ==== Sys2Proof/Machine/Halt.lean ====
section
/-! DEFINITION. The halt word (48_halt_and_unimplemented.md rule R230) and the table's rows without a handler (R231, R232), which raise
IllegalInstruction (spec decision D6, log 6). -/

namespace Sys2Proof.Machine

/-- HALT, the zero word (R122, R230): no register, no memory, no `pc_next` write. -/
def execHalt (s : State) : Host.Outcome State Fault Refusal :=
  .next (s.setStatus (.halted .zeroWord))

/-- FENCE (R231). -/
def execFence (hi : BitVec 17) (lo : BitVec 5) (s : State) : Host.Outcome State Fault Refusal :=
  .next (s.takeIllegal (encode (.fence hi lo)))

/-- FENCE.I (R231). -/
def execFenceI (hi : BitVec 17) (lo : BitVec 5) (s : State) : Host.Outcome State Fault Refusal :=
  .next (s.takeIllegal (encode (.fenceI hi lo)))

/-- ECALL (R232). -/
def execEcall (s : State) : Host.Outcome State Fault Refusal :=
  .next (s.takeIllegal (encode .ecall))

/-- EBREAK (R232). -/
def execEbreak (s : State) : Host.Outcome State Fault Refusal :=
  .next (s.takeIllegal (encode .ebreak))

end Sys2Proof.Machine
end

