-- ==== Sys2Proof/Machine/Jumps.lean ====
section
/-! DEFINITION. The unconditional jumps (46_jumps.md rules R210, R211). Targets are not checked. -/

namespace Sys2Proof.Machine

/-- JAL (R210). -/
def execJal (rd : RegIdx) (offset : Word) (s : State) : Host.Outcome State Fault Refusal :=
  .next ((s.writeReg rd s.linkValue).setPcNext (s.pcRel offset))

/-- JALR (R211): the target is that of the old `x[rs1]`, also when `rd = rs1` (R9, log 9). -/
def execJalr (rd rs1 : RegIdx) (imm : Word) (s : State) : Host.Outcome State Fault Refusal :=
  .next ((s.writeReg rd s.linkValue).setPcNext (s.jalrTarget rs1 imm))

end Sys2Proof.Machine
end

