-- ==== Sys2Proof/Machine/Loads.lean ====
section
/-! DEFINITION. The loads (43_loads.md rules R180 to R185). The encoded word goes into the record of a fault (R241). -/

namespace Sys2Proof.Machine

/-- LB (R181). -/
def execLb (rd rs1 : RegIdx) (imm : Word) (s : State) : Host.Outcome State Fault Refusal :=
  .next (s.loadInto (encode (.lb rd rs1 imm)) .byte sextByte rd rs1 imm)

/-- LH (R182). -/
def execLh (rd rs1 : RegIdx) (imm : Word) (s : State) : Host.Outcome State Fault Refusal :=
  .next (s.loadInto (encode (.lh rd rs1 imm)) .half sextHalf rd rs1 imm)

/-- LW (R183). -/
def execLw (rd rs1 : RegIdx) (imm : Word) (s : State) : Host.Outcome State Fault Refusal :=
  .next (s.loadInto (encode (.lw rd rs1 imm)) .word id rd rs1 imm)

/-- LBU (R184). -/
def execLbu (rd rs1 : RegIdx) (imm : Word) (s : State) : Host.Outcome State Fault Refusal :=
  .next (s.loadInto (encode (.lbu rd rs1 imm)) .byte zextByte rd rs1 imm)

/-- LHU (R185). -/
def execLhu (rd rs1 : RegIdx) (imm : Word) (s : State) : Host.Outcome State Fault Refusal :=
  .next (s.loadInto (encode (.lhu rd rs1 imm)) .half zextHalf rd rs1 imm)

end Sys2Proof.Machine
end

