-- ==== Sys2Proof/Machine/Stores.lean ====
section
/-! DEFINITION. The stores (44_stores.md rules R190 to R193). The encoded word goes into the record of a fault (R241). -/

namespace Sys2Proof.Machine

/-- SB (R191). -/
def execSb (rs1 rs2 : RegIdx) (imm : Word) (s : State) : Host.Outcome State Fault Refusal :=
  .next (s.storeFrom (encode (.sb rs1 rs2 imm)) .byte rs1 rs2 imm)

/-- SH (R192). -/
def execSh (rs1 rs2 : RegIdx) (imm : Word) (s : State) : Host.Outcome State Fault Refusal :=
  .next (s.storeFrom (encode (.sh rs1 rs2 imm)) .half rs1 rs2 imm)

/-- SW (R193). -/
def execSw (rs1 rs2 : RegIdx) (imm : Word) (s : State) : Host.Outcome State Fault Refusal :=
  .next (s.storeFrom (encode (.sw rs1 rs2 imm)) .word rs1 rs2 imm)

end Sys2Proof.Machine
end

