-- ==== Sys2Proof/Machine/Upper.lean ====
section
/-! DEFINITION. The upper-immediate instructions (47_upper_immediate.md rules R220, R221). -/

namespace Sys2Proof.Machine

/-- LUI (R220): the immediate is already shifted. -/
def execLui (rd : RegIdx) (imm : Word) (s : State) : Host.Outcome State Fault Refusal :=
  .next (s.writeReg rd imm)

/-- AUIPC (R221). -/
def execAuipc (rd : RegIdx) (imm : Word) (s : State) : Host.Outcome State Fault Refusal :=
  .next (s.writeReg rd (s.pcRel imm))

end Sys2Proof.Machine
end

