-- ==== Sys2Proof/Machine/Engine.lean ====
section
/-! DEFINITION. The execution engine: one cycle (40_fetch_dispatch_cycle.md rules R120 to R129), construction
(70_reset_and_hazards.md rules R270 to R275) and what the host observes (R278, R279). -/

namespace Sys2Proof.Machine

/-- The sentinel test: `pc_next` and `HALT_SENTINEL` agree in bits 31..1 (R121, conflict C2). -/
def State.atSentinel (s : State) : Bool :=
  decide (s.pcNext &&& 0xFFFFFFFE#32 = s.cfg.haltSentinel &&& 0xFFFFFFFE#32)

/-- Dispatch and execute a fetched word (R120 steps 5 to 7). A word that stands for no instruction raises
IllegalInstruction (R244). -/
def State.runWord (s : State) (w : Word) : Host.Outcome State Fault Refusal :=
  match decode w with
  | .error _ => .next (s.takeIllegal w)
  | .ok i => exec i s

/-- The cycle after the sentinel test has passed (R120 steps 2 to 7). -/
def State.fetchAndRun (s : State) : Host.Outcome State Fault Refusal :=
  match s.advance.fetch with
  | .error f => .next (s.advance.takeFault f)
  | .ok w => s.advance.runWord w

/-- One cycle of a running machine (R120). -/
def State.cycle (s : State) : Host.Outcome State Fault Refusal :=
  if s.atSentinel then .next (s.setStatus (.halted .sentinelReached)) else s.fetchAndRun

/-- A machine in a terminal status performs no further mutation (R29). DESIGN CHOICE (log 4): its step answers the same
state, so that a run under fuel ends in the terminal state. -/
def State.terminalStep (s : State) : Host.Outcome State Fault Refusal := .next s

/-! ## Construction -/

/-- Construction (R271): memory all zero, the image copied verbatim at `START_OFFSET`, registers, pc pair and status set.
`none` is an image that cannot be read. LoadFailure if it cannot be read or does not fit (R68, R272); then no machine
exists. -/
def construct (c : Config) (image : Option (List Byte)) : Except Fault State :=
  match image with
  | none => .error .loadFailure
  | some bytes =>
    if c.capacity < c.startOffset.toNat + bytes.length then .error .loadFailure
    else .ok (State.initial c (Memory.setBytes [] c.startOffset.toNat bytes))

/-! ## What the host observes -/

/-- The register file and memory snapshot (R279): the 32 values `x[0..31]`, and the memory of `capacity` bytes. -/
structure Snapshot where
  regs : Vector Word 32
  mem : Memory
  capacity : Nat
deriving DecidableEq, Repr

/-- What the host has at hand (R278): nothing while the run is in progress, the cause and the snapshot on Halted, the
record on Faulted. -/
inductive Report where
  | inProgress
  | halted (cause : HaltCause) (snapshot : Snapshot)
  | faulted (record : Fault)
deriving DecidableEq, Repr

/-- The snapshot of a state (R279). -/
def State.snapshot (s : State) : Snapshot where
  regs := Vector.ofFn (fun i => s.readReg i)
  mem := s.mem
  capacity := s.cfg.capacity

/-- What the host observes of a state (R278, R279). -/
def State.report (s : State) : Report :=
  match s.status with
  | .running => .inProgress
  | .halted cause => .halted cause s.snapshot
  | .faulted f => .faulted f

/-- A table word laid out where the next cycle fetches: the four bytes at `pc_next` (R56, R60), in a machine that is
running. -/
def State.placeFetchWord (s : State) (nbits w : Nat) : State :=
  (s.setMem (Memory.setBytes s.mem s.pcNext.toNat (bytesLE 4 (w % 2 ^ nbits)))).setStatus .running

end Sys2Proof.Machine
end

