-- ==== Sys2Proof/Machine/Step.lean ====
section
/-! DEFINITION. One step: one cycle while the run status is Running (40_fetch_dispatch_cycle.md rule R120), nothing in a terminal
status (10_state.md rule R29). -/

namespace Sys2Proof.Machine

/-- One step of the machine. -/
def step (s : State) : Host.Outcome State Fault Refusal :=
  match s.status with
  | .running => s.cycle
  | .halted _ => s.terminalStep
  | .faulted _ => s.terminalStep

/-- `s` with a table word stored where `step` fetches its next instruction. The next step runs it if `pc_next` is not
the sentinel and passes the fetch's checks, as in `State.reset`. A program comes to run by construction, which loads the
image (log 21). -/
def State.withFetchWord (s : State) (nbits w : Nat) : State := s.placeFetchWord nbits w

end Sys2Proof.Machine
end

