-- ==== Sys2Proof/Safety.lean ====
section
/-! DEFINITION. The terms the claims use: what a register write, a jump and a taken fault leave unchanged, which registers an
instruction names, what a fault record says of the state it left, the machine's invariant, and a safe run. -/

namespace Sys2Proof.Machine

/-! ## Frames -/

/-- Every register reads the same (R22). -/
def SameRegs (s t : State) : Prop := ∀ r, t.readReg r = s.readReg r

/-- Every byte of memory reads the same (R28). -/
def SameMem (s t : State) : Prop := ∀ a, Memory.get t.mem a = Memory.get s.mem a

/-- `t` is `s` after one write of `v` to `x[rd]` and nothing else; a write to `x[0]` is dropped (R23). -/
structure RegWrite (s t : State) (rd : RegIdx) (v : Word) : Prop where
  value : t.readReg rd = if rd = 0 then 0#32 else v
  others : ∀ r, r ≠ rd → t.readReg r = s.readReg r
  pc : t.pc = s.pc
  pcNext : t.pcNext = s.pcNext
  mem : SameMem s t
  status : t.status = s.status
  cfg : t.cfg = s.cfg

/-- `t` is `s` after a jump to `target` that writes `link` to `x[rd]`, and nothing else (R210, R211). -/
structure LinkJump (s t : State) (rd : RegIdx) (link target : Word) : Prop where
  value : t.readReg rd = if rd = 0 then 0#32 else link
  others : ∀ r, r ≠ rd → t.readReg r = s.readReg r
  pc : t.pc = s.pc
  pcNext : t.pcNext = target
  mem : SameMem s t
  status : t.status = s.status
  cfg : t.cfg = s.cfg

/-- `t` is `s` with the next address at `target`, and nothing else (R200). -/
structure BranchTo (s t : State) (target : Word) : Prop where
  regs : SameRegs s t
  pc : t.pc = s.pc
  pcNext : t.pcNext = target
  mem : SameMem s t
  status : t.status = s.status
  cfg : t.cfg = s.cfg

/-- `t` is `s` with the bytes `bs` in memory from address `a` upwards, and nothing else (R55). -/
structure BytesStored (s t : State) (a : Nat) (bs : List Byte) : Prop where
  stored : ∀ k (h : k < bs.length), Memory.get t.mem (a + k) = bs[k]
  others : ∀ b, (b < a ∨ a + bs.length ≤ b) → Memory.get t.mem b = Memory.get s.mem b
  regs : SameRegs s t
  pc : t.pc = s.pc
  pcNext : t.pcNext = s.pcNext
  status : t.status = s.status
  cfg : t.cfg = s.cfg

/-- `t` is `s` with another run status, and nothing else (R29). -/
structure StatusOnly (s t : State) (st : Status) : Prop where
  status : t.status = st
  regs : SameRegs s t
  pc : t.pc = s.pc
  pcNext : t.pcNext = s.pcNext
  mem : SameMem s t
  cfg : t.cfg = s.cfg

/-- Every word under a mask and value decodes to the instruction `mk` makes of its fields. -/
def EncodedAs (mask value : Word) (mk : Word → Instr) : Prop :=
  ∀ w : Word, w &&& mask = value → decode w = .ok (mk w)

/-! ## What an access meets (R51 to R53) -/

/-- An access that passes both checks. -/
def AccessOk (c : Config) (addr : Word) (n : Nat) : Prop :=
  (c.strictAlign = true → addr.toNat % n = 0) ∧ addr.toNat + n ≤ c.capacity

/-- An access that fails the alignment check. -/
def Misaligned (c : Config) (addr : Word) (n : Nat) : Prop := c.strictAlign = true ∧ addr.toNat % n ≠ 0

/-- An access that passes the alignment check and fails the bounds check. -/
def PastEnd (c : Config) (addr : Word) (n : Nat) : Prop :=
  (c.strictAlign = true → addr.toNat % n = 0) ∧ c.capacity < addr.toNat + n

/-- The fault is UnalignedAccess at an address and width (R243). -/
def UnalignedAt (f : Fault) (addr : Word) (width : Width) : Prop :=
  ∃ pc access instr, f = .unalignedAccess pc addr width access instr

/-- The fault is OutOfBounds at an address and width (R242). -/
def OutOfBoundsAt (f : Fault) (addr : Word) (width : Width) : Prop :=
  ∃ pc access instr, f = .outOfBounds pc addr width access instr

/-- The fault is IllegalInstruction of a word (R244). -/
def IllegalOf (f : Fault) (w : Word) : Prop := ∃ pc, f = .illegalInstruction pc w

/-- An instruction takes UnalignedAccess at an address and width. -/
def TakesUnaligned (i : Instr) (s : State) (addr : Word) (width : Width) : Prop :=
  ∃ t f, exec i s = .next t ∧ t.status = .faulted f ∧ UnalignedAt f addr width

/-! ## Which registers an instruction names (R35) -/

/-- The registers an instruction reads. -/
def sources : Instr → List RegIdx
  | .lui _ _ => []
  | .auipc _ _ => []
  | .jal _ _ => []
  | .jalr _ rs1 _ => [rs1]
  | .beq rs1 rs2 _ => [rs1, rs2]
  | .bne rs1 rs2 _ => [rs1, rs2]
  | .blt rs1 rs2 _ => [rs1, rs2]
  | .bge rs1 rs2 _ => [rs1, rs2]
  | .bltu rs1 rs2 _ => [rs1, rs2]
  | .bgeu rs1 rs2 _ => [rs1, rs2]
  | .lb _ rs1 _ => [rs1]
  | .lh _ rs1 _ => [rs1]
  | .lw _ rs1 _ => [rs1]
  | .lbu _ rs1 _ => [rs1]
  | .lhu _ rs1 _ => [rs1]
  | .sb rs1 rs2 _ => [rs1, rs2]
  | .sh rs1 rs2 _ => [rs1, rs2]
  | .sw rs1 rs2 _ => [rs1, rs2]
  | .addi _ rs1 _ => [rs1]
  | .slti _ rs1 _ => [rs1]
  | .sltiu _ rs1 _ => [rs1]
  | .xori _ rs1 _ => [rs1]
  | .ori _ rs1 _ => [rs1]
  | .andi _ rs1 _ => [rs1]
  | .slli _ rs1 _ => [rs1]
  | .srli _ rs1 _ => [rs1]
  | .srai _ rs1 _ => [rs1]
  | .add _ rs1 rs2 => [rs1, rs2]
  | .sub _ rs1 rs2 => [rs1, rs2]
  | .sll _ rs1 rs2 => [rs1, rs2]
  | .slt _ rs1 rs2 => [rs1, rs2]
  | .sltu _ rs1 rs2 => [rs1, rs2]
  | .xor _ rs1 rs2 => [rs1, rs2]
  | .srl _ rs1 rs2 => [rs1, rs2]
  | .sra _ rs1 rs2 => [rs1, rs2]
  | .or _ rs1 rs2 => [rs1, rs2]
  | .and _ rs1 rs2 => [rs1, rs2]
  | .halt => []
  | .fence _ _ => []
  | .fenceI _ _ => []
  | .ecall => []
  | .ebreak => []

/-- The register an instruction writes. -/
def destination : Instr → Option RegIdx
  | .lui rd _ => some rd
  | .auipc rd _ => some rd
  | .jal rd _ => some rd
  | .jalr rd _ _ => some rd
  | .beq _ _ _ => none
  | .bne _ _ _ => none
  | .blt _ _ _ => none
  | .bge _ _ _ => none
  | .bltu _ _ _ => none
  | .bgeu _ _ _ => none
  | .lb rd _ _ => some rd
  | .lh rd _ _ => some rd
  | .lw rd _ _ => some rd
  | .lbu rd _ _ => some rd
  | .lhu rd _ _ => some rd
  | .sb _ _ _ => none
  | .sh _ _ _ => none
  | .sw _ _ _ => none
  | .addi rd _ _ => some rd
  | .slti rd _ _ => some rd
  | .sltiu rd _ _ => some rd
  | .xori rd _ _ => some rd
  | .ori rd _ _ => some rd
  | .andi rd _ _ => some rd
  | .slli rd _ _ => some rd
  | .srli rd _ _ => some rd
  | .srai rd _ _ => some rd
  | .add rd _ _ => some rd
  | .sub rd _ _ => some rd
  | .sll rd _ _ => some rd
  | .slt rd _ _ => some rd
  | .sltu rd _ _ => some rd
  | .xor rd _ _ => some rd
  | .srl rd _ _ => some rd
  | .sra rd _ _ => some rd
  | .or rd _ _ => some rd
  | .and rd _ _ => some rd
  | .halt => none
  | .fence _ _ => none
  | .fenceI _ _ => none
  | .ecall => none
  | .ebreak => none

/-- The 32-bit immediate an instruction carries, as the immediate generator makes it (R85 to R92). -/
def immediate : Instr → Option Word
  | .lui _ imm => some imm
  | .auipc _ imm => some imm
  | .jal _ offset => some offset
  | .jalr _ _ imm => some imm
  | .beq _ _ offset => some offset
  | .bne _ _ offset => some offset
  | .blt _ _ offset => some offset
  | .bge _ _ offset => some offset
  | .bltu _ _ offset => some offset
  | .bgeu _ _ offset => some offset
  | .lb _ _ imm => some imm
  | .lh _ _ imm => some imm
  | .lw _ _ imm => some imm
  | .lbu _ _ imm => some imm
  | .lhu _ _ imm => some imm
  | .sb _ _ imm => some imm
  | .sh _ _ imm => some imm
  | .sw _ _ imm => some imm
  | .addi _ _ imm => some imm
  | .slti _ _ imm => some imm
  | .sltiu _ _ imm => some imm
  | .xori _ _ imm => some imm
  | .ori _ _ imm => some imm
  | .andi _ _ imm => some imm
  | .slli _ _ shamt => some (shamt.setWidth 32)
  | .srli _ _ shamt => some (shamt.setWidth 32)
  | .srai _ _ shamt => some (shamt.setWidth 32)
  | .add _ _ _ => none
  | .sub _ _ _ => none
  | .sll _ _ _ => none
  | .slt _ _ _ => none
  | .sltu _ _ _ => none
  | .xor _ _ _ => none
  | .srl _ _ _ => none
  | .sra _ _ _ => none
  | .or _ _ _ => none
  | .and _ _ _ => none
  | .halt => none
  | .fence _ _ => none
  | .fenceI _ _ => none
  | .ecall => none
  | .ebreak => none

/-- The bits of a word its instruction depends on: all of them, but `w[31:25]` of SLLI (R97) and of the six OP
instructions of R96. -/
def keptBits : Instr → Word
  | .slli .. => 0x01FFFFFF#32
  | .sll .. => 0x01FFFFFF#32
  | .slt .. => 0x01FFFFFF#32
  | .sltu .. => 0x01FFFFFF#32
  | .xor .. => 0x01FFFFFF#32
  | .or .. => 0x01FFFFFF#32
  | .and .. => 0x01FFFFFF#32
  | _ => 0xFFFFFFFF#32

/-- The bytes an instruction may store to in a state: its effective address and its width (R190). -/
def storedRange (i : Instr) (s : State) : Option (Nat × Nat) :=
  match i with
  | .sb rs1 _ imm => some ((s.effAddr rs1 imm).toNat, 1)
  | .sh rs1 _ imm => some ((s.effAddr rs1 imm).toNat, 2)
  | .sw rs1 _ imm => some ((s.effAddr rs1 imm).toNat, 4)
  | _ => none

/-- The data access an instruction makes in a state: the effective address, the width and the kind that its mnemonic fixes
(R180 to R185, R190 to R193). -/
def dataAccess (i : Instr) (s : State) : Option (Word × Width × AccessKind) :=
  match i with
  | .lb _ rs1 imm => some (s.effAddr rs1 imm, .byte, .load)
  | .lh _ rs1 imm => some (s.effAddr rs1 imm, .half, .load)
  | .lw _ rs1 imm => some (s.effAddr rs1 imm, .word, .load)
  | .lbu _ rs1 imm => some (s.effAddr rs1 imm, .byte, .load)
  | .lhu _ rs1 imm => some (s.effAddr rs1 imm, .half, .load)
  | .sb rs1 _ imm => some (s.effAddr rs1 imm, .byte, .store)
  | .sh rs1 _ imm => some (s.effAddr rs1 imm, .half, .store)
  | .sw rs1 _ imm => some (s.effAddr rs1 imm, .word, .store)
  | _ => none

/-- The data access of an instruction, if it makes one, passes both checks (R51). -/
def DataAccessOk (i : Instr) (s : State) : Prop :=
  ∀ addr width access, dataAccess i s = some (addr, width, access) → AccessOk s.cfg addr width.bytes

/-! ## The invariant -/

/-- The fields of an access fault agree with the state it left (R241): a fetch records `pc`, width 4 and no word; a data
access records the fetched word, and the address, width and kind of the access its instruction makes. -/
def AccessRecorded (s : State) (pc addr : Word) (width : Width) (access : AccessKind) (instr : Option Word) : Prop :=
  pc = s.pc ∧
    ((access = .fetch ∧ addr = pc ∧ width = .word ∧ instr = none) ∨
      ∃ w i, instr = some w ∧ s.fetch = .ok w ∧ decode w = .ok i ∧ dataAccess i s = some (addr, width, access))

/-- A fault record tells the truth of the state it left (R241 to R245). -/
def FaultTrue (s : State) : Fault → Prop
  | .outOfBounds pc addr width access instr =>
      PastEnd s.cfg addr width.bytes ∧ AccessRecorded s pc addr width access instr
  | .unalignedAccess pc addr width access instr =>
      Misaligned s.cfg addr width.bytes ∧ AccessRecorded s pc addr width access instr
  | .illegalInstruction pc w => pc = s.pc ∧ s.fetch = .ok w ∧ hasHandler w = false
  | .loadFailure => False

/-- The pc pair and the status agree with how the run ended (R129). -/
def EndingTrue (s : State) : Prop :=
  match s.status with
  | .running => True
  | .halted .zeroWord => s.pcNext = s.pc + 4#32 ∧ s.fetch = .ok 0#32
  | .halted .sentinelReached => s.pcNext >>> 1 = s.cfg.haltSentinel >>> 1
  | .faulted f => s.pcNext = s.pc + 4#32 ∧ FaultTrue s f

/-- The invariant of the machine: the capacity is in its range (R6), memory is canonical and lists only addresses that
exist (R28, R61), an even entry point keeps the pc pair even (R26), and a terminal status tells how the run ended
(R129, R241). -/
structure State.Inv (s : State) : Prop where
  cfgWf : s.cfg.wf
  memWf : Memory.wf s.mem
  memWithin : Memory.within s.mem s.cfg.capacity
  evenPc : s.cfg.entrypoint.toNat % 2 = 0 → s.pc.toNat % 2 = 0 ∧ s.pcNext.toNat % 2 = 0
  ending : EndingTrue s

/-! ## A safe run -/

/-- The state has met no fault (R246). -/
def State.safe (s : State) : Prop := ∀ f, s.status ≠ .faulted f

/-- `n` steps from a state end in a state that has met no fault. -/
def SafeFor (n : Nat) (s : State) : Prop :=
  ∃ t : State, Host.Core.run Sys2Proof.core n s = .next t ∧ t.safe

end Sys2Proof.Machine
end

