-- ==== Sys2Proof/Certificates/Slice0/Obligations.lean ====
section
/-! DEFINITION. The statements about the machine, for the provers. Each docstring names the rule of spec/ it formalises. -/

open Sys2Proof Sys2Proof.Machine

/-! ## Registers, construction, reset -/

/-- R22, R23: what was written to an index 1 to 31 is read back, `x[0]` reads 0 whatever is written to it, and a write
touches no other register. -/
def Obligations.RegisterFileLaws : Prop :=
  (∀ (s : State) (r : RegIdx) (v : Word), r ≠ 0 → (s.writeReg r v).readReg r = v) ∧
  (∀ (s : State) (v : Word), (s.writeReg 0 v).readReg 0 = 0#32 ∧ s.writeReg 0 v = s) ∧
  (∀ (s : State), s.readReg 0 = 0#32) ∧
  (∀ (s : State) (r : RegIdx) (v : Word), RegWrite s (s.writeReg r v) r v)

/-- R34, R273, R274: registers, pc pair and status at the end of construction, and the default of `SP_INIT`
(the spec's decision D2, log 2). -/
def Obligations.ConstructionSetsRegistersAndPc : Prop :=
  (∀ (c : Config) (image : List Byte) (t : State), construct c (some image) = .ok t →
    t.readReg 0 = 0#32 ∧ t.readReg 1 = c.haltSentinel ∧ t.readReg 2 = c.spInit ∧
    (∀ r : RegIdx, 3 ≤ r.val → t.readReg r = 0#32) ∧
    t.pc = c.entrypoint ∧ t.pcNext = c.entrypoint ∧ t.status = .running ∧ t.cfg = c) ∧
  (∀ (capacity : Nat) (strict : Bool) (entry sentinel : Word),
    ({ capacity := capacity, strictAlign := strict, entrypoint := entry, haltSentinel := sentinel } : Config).spInit.toNat
      = capacity % 2 ^ 32)

/-- R68, R272, R275 with the spec's decisions D3 and D10 (logs 3, 12): construction fails with LoadFailure when the image cannot be
read or does not fit, and otherwise the image stands verbatim at the start offset and every other byte reads zero. -/
def Obligations.ConstructionCopiesTheImageOrFails : Prop :=
  ∀ (c : Config),
    construct c none = .error .loadFailure ∧
    ∀ image : List Byte,
      (c.capacity < c.startOffset.toNat + image.length → construct c (some image) = .error .loadFailure) ∧
      (c.startOffset.toNat + image.length ≤ c.capacity → ∃ t, construct c (some image) = .ok t ∧
        (∀ k (h : k < image.length), Memory.get t.mem (c.startOffset.toNat + k) = image[k]) ∧
        (∀ a, (a < c.startOffset.toNat ∨ c.startOffset.toNat + image.length ≤ a) → Memory.get t.mem a = 0#8))

/-- The reset state is the construction of the reference configuration with an empty image. The values of the open
parameters are the model's choice (log 1); that `x2` holds the capacity is the spec's decision D2 (log 2), that every byte
reads 0x00 its decision D3 (log 3). -/
def Obligations.ResetIsReferenceConstruction : Prop :=
  construct Config.reference (some []) = .ok State.reset ∧
  State.reset.readReg 1 = 0xFFFF0000#32 ∧ State.reset.readReg 2 = 0x00010000#32 ∧
  State.reset.pc = 0#32 ∧ State.reset.pcNext = 0#32 ∧ State.reset.status = .running ∧
  (∀ r : RegIdx, 3 ≤ r.val → State.reset.readReg r = 0#32) ∧ (∀ a, Memory.get State.reset.mem a = 0#8)

/-! ## Memory -/

/-- R54: the outcome of `MemRead` in its three cases, the value as the spec's sum. That the bounds check adds without
wrapping is the spec's decision D4 (log 10). -/
def Obligations.MemReadContract : Prop :=
  ∀ (s : State) (addr : Word) (width : Width) (access : AccessKind) (instr : Option Word),
    (Misaligned s.cfg addr width.bytes →
      ∃ f, s.memRead addr width access instr = .error f ∧ UnalignedAt f addr width) ∧
    (PastEnd s.cfg addr width.bytes →
      ∃ f, s.memRead addr width access instr = .error f ∧ OutOfBoundsAt f addr width) ∧
    (AccessOk s.cfg addr width.bytes → ∃ v : Word, s.memRead addr width access instr = .ok v ∧
      v.toNat = ∑ i ∈ Finset.range width.bytes, (Memory.get s.mem (addr.toNat + i)).toNat * 2 ^ (8 * i))

/-- R55: the outcome of `MemWrite` in its three cases, the bytes written, and that nothing else changes. That the bounds
check adds without wrapping is the spec's decision D4 (log 10). -/
def Obligations.MemWriteContract : Prop :=
  ∀ (s : State) (addr : Word) (width : Width) (v : Word) (instr : Option Word),
    (Misaligned s.cfg addr width.bytes →
      ∃ f, s.memWrite addr width v instr = .error f ∧ UnalignedAt f addr width) ∧
    (PastEnd s.cfg addr width.bytes →
      ∃ f, s.memWrite addr width v instr = .error f ∧ OutOfBoundsAt f addr width) ∧
    (AccessOk s.cfg addr width.bytes → ∃ t : State, s.memWrite addr width v instr = .ok t ∧
      BytesStored s t addr.toNat (List.ofFn (n := width.bytes) (fun i => v.extractLsb' (8 * i.val) 8)))

/-- R57: where the access passes the checks, a read after a write of the same width at the same address returns the low
bits written, aligned or not when alignment is not enforced. The source states the law for aligned words; the clauses for
misaligned addresses and for the low bits of u8 and u16 values are inferences that R57 marks as its own (from R52, R54,
R55). -/
def Obligations.MemoryRoundTrip : Prop :=
  ∀ (s : State) (addr : Word) (width : Width) (v : Word) (access : AccessKind) (instr instr' : Option Word),
    AccessOk s.cfg addr width.bytes → ∃ t, s.memWrite addr width v instr = .ok t ∧
      t.memRead addr width access instr' = .ok (BitVec.ofNat 32 (v.toNat % 2 ^ (8 * width.bytes)))

/-- R56: after a word is written, narrower reads see its little-endian bytes. -/
def Obligations.ByteOrderIsLittleEndian : Prop :=
  ∀ (s t : State) (addr v : Word) (access : AccessKind) (instr instr' : Option Word),
    s.cfg.wf → s.memWrite addr .word v instr = .ok t →
    t.memRead addr .byte access instr' = .ok ((v.extractLsb' 0 8).setWidth 32) ∧
    t.memRead (addr + 1#32) .byte access instr' = .ok ((v.extractLsb' 8 8).setWidth 32) ∧
    t.memRead (addr + 2#32) .byte access instr' = .ok ((v.extractLsb' 16 8).setWidth 32) ∧
    t.memRead (addr + 3#32) .byte access instr' = .ok ((v.extractLsb' 24 8).setWidth 32) ∧
    t.memRead addr .half access instr' = .ok ((v.extractLsb' 0 16).setWidth 32) ∧
    t.memRead (addr + 2#32) .half access instr' = .ok ((v.extractLsb' 16 16).setWidth 32)

/-- R28 in the model's representation: two canonical memories that read the same at every address are the same data. -/
def Obligations.CanonicalMemoriesAreEqualWhenReadsAgree : Prop :=
  ∀ m n : Memory, Memory.wf m → Memory.wf n → (∀ a, Memory.get m a = Memory.get n a) → m = n

/-! ## Results of the instructions -/

/-- R220: LUI writes its immediate and nothing else. -/
def Obligations.LuiWritesTheImmediate : Prop :=
  EncodedAs 0x7F#32 0x37#32 (fun w => .lui (fieldRd w) (w &&& 0xFFFFF000#32)) ∧
  ∀ (s : State) (rd : RegIdx) (imm : Word), ∃ t, exec (.lui rd imm) s = .next t ∧ RegWrite s t rd imm

/-- R221: AUIPC writes `pc + imm` and nothing else. -/
def Obligations.AuipcWritesPcPlusImmediate : Prop :=
  EncodedAs 0x7F#32 0x17#32 (fun w => .auipc (fieldRd w) (w &&& 0xFFFFF000#32)) ∧
  ∀ (s : State) (rd : RegIdx) (imm : Word), ∃ t, exec (.auipc rd imm) s = .next t ∧
    RegWrite s t rd (BitVec.ofNat 32 ((s.pc.toNat + imm.toNat) % 2 ^ 32))

/-- R210: JAL links and jumps relative to its own address. -/
def Obligations.JalLinksAndJumps : Prop :=
  EncodedAs 0x7F#32 0x6F#32 (fun w => .jal (fieldRd w) (immJ w)) ∧
  ∀ (s : State) (rd : RegIdx) (offset : Word), ∃ t, exec (.jal rd offset) s = .next t ∧
    LinkJump s t rd (BitVec.ofNat 32 ((s.pc.toNat + 4) % 2 ^ 32)) (BitVec.ofNat 32 ((s.pc.toNat + offset.toNat) % 2 ^ 32))

/-- R211 with the spec's decisions D8 and D9 (logs 8, 9): JALR links and jumps to the sum of the old `x[rs1]` and the immediate, bit 0 cleared,
also when `rd = rs1`. -/
def Obligations.JalrLinksAndJumpsByTheOldRegister : Prop :=
  EncodedAs 0x707F#32 0x67#32 (fun w => .jalr (fieldRd w) (fieldRs1 w) (immI w)) ∧
  ∀ (s : State) (rd rs1 : RegIdx) (imm : Word), ∃ t, exec (.jalr rd rs1 imm) s = .next t ∧
    LinkJump s t rd (BitVec.ofNat 32 ((s.pc.toNat + 4) % 2 ^ 32))
      (BitVec.ofNat 32 (((s.readReg rs1).toNat + imm.toNat) % 2 ^ 32 / 2 * 2))

/-- R201 to R206: each branch goes to `pc + offset` when its condition holds and keeps the default advance otherwise. -/
def Obligations.BranchesFollowTheirConditions : Prop :=
  EncodedAs 0x707F#32 0x0063#32 (fun w => .beq (fieldRs1 w) (fieldRs2 w) (immB w)) ∧
  EncodedAs 0x707F#32 0x1063#32 (fun w => .bne (fieldRs1 w) (fieldRs2 w) (immB w)) ∧
  EncodedAs 0x707F#32 0x4063#32 (fun w => .blt (fieldRs1 w) (fieldRs2 w) (immB w)) ∧
  EncodedAs 0x707F#32 0x5063#32 (fun w => .bge (fieldRs1 w) (fieldRs2 w) (immB w)) ∧
  EncodedAs 0x707F#32 0x6063#32 (fun w => .bltu (fieldRs1 w) (fieldRs2 w) (immB w)) ∧
  EncodedAs 0x707F#32 0x7063#32 (fun w => .bgeu (fieldRs1 w) (fieldRs2 w) (immB w)) ∧
  ∀ (s : State) (rs1 rs2 : RegIdx) (offset : Word),
    let a := s.readReg rs1
    let b := s.readReg rs2
    let taken := BitVec.ofNat 32 ((s.pc.toNat + offset.toNat) % 2 ^ 32)
    (∃ t, exec (.beq rs1 rs2 offset) s = .next t ∧ BranchTo s t (if a.toNat = b.toNat then taken else s.pcNext)) ∧
    (∃ t, exec (.bne rs1 rs2 offset) s = .next t ∧ BranchTo s t (if a.toNat = b.toNat then s.pcNext else taken)) ∧
    (∃ t, exec (.blt rs1 rs2 offset) s = .next t ∧ BranchTo s t (if signed a < signed b then taken else s.pcNext)) ∧
    (∃ t, exec (.bge rs1 rs2 offset) s = .next t ∧ BranchTo s t (if signed b ≤ signed a then taken else s.pcNext)) ∧
    (∃ t, exec (.bltu rs1 rs2 offset) s = .next t ∧ BranchTo s t (if a.toNat < b.toNat then taken else s.pcNext)) ∧
    (∃ t, exec (.bgeu rs1 rs2 offset) s = .next t ∧ BranchTo s t (if b.toNat ≤ a.toNat then taken else s.pcNext))

/-- R181, R184: a byte load is never misaligned; one whose access passes the checks writes the sign- or zero-extended
byte. -/
def Obligations.ByteLoadsExtendTheByte : Prop :=
  EncodedAs 0x707F#32 0x0003#32 (fun w => .lb (fieldRd w) (fieldRs1 w) (immI w)) ∧
  EncodedAs 0x707F#32 0x4003#32 (fun w => .lbu (fieldRd w) (fieldRs1 w) (immI w)) ∧
  (∀ (s : State) (rs1 : RegIdx) (imm : Word), ¬ Misaligned s.cfg (s.effAddr rs1 imm) 1) ∧
  ∀ (s : State) (rd rs1 : RegIdx) (imm : Word), AccessOk s.cfg (s.effAddr rs1 imm) 1 →
    let v := (Memory.get s.mem (s.effAddr rs1 imm).toNat).toNat
    (∃ t, exec (.lb rd rs1 imm) s = .next t ∧
      RegWrite s t rd (BitVec.ofInt 32 (if v < 128 then (v : Int) else (v : Int) - 256))) ∧
    (∃ t, exec (.lbu rd rs1 imm) s = .next t ∧ RegWrite s t rd (BitVec.ofNat 32 v))

/-- R182, R185: a halfword load takes UnalignedAccess when misaligned; one whose access passes the checks writes the sign-
or zero-extended halfword. -/
def Obligations.HalfLoadsExtendTheHalfword : Prop :=
  EncodedAs 0x707F#32 0x1003#32 (fun w => .lh (fieldRd w) (fieldRs1 w) (immI w)) ∧
  EncodedAs 0x707F#32 0x5003#32 (fun w => .lhu (fieldRd w) (fieldRs1 w) (immI w)) ∧
  (∀ (s : State) (rd rs1 : RegIdx) (imm : Word), Misaligned s.cfg (s.effAddr rs1 imm) 2 →
    TakesUnaligned (.lh rd rs1 imm) s (s.effAddr rs1 imm) .half ∧
    TakesUnaligned (.lhu rd rs1 imm) s (s.effAddr rs1 imm) .half) ∧
  ∀ (s : State) (rd rs1 : RegIdx) (imm : Word), AccessOk s.cfg (s.effAddr rs1 imm) 2 →
    let a := (s.effAddr rs1 imm).toNat
    let v := (Memory.get s.mem a).toNat + 256 * (Memory.get s.mem (a + 1)).toNat
    (∃ t, exec (.lh rd rs1 imm) s = .next t ∧
      RegWrite s t rd (BitVec.ofInt 32 (if v < 32768 then (v : Int) else (v : Int) - 65536))) ∧
    (∃ t, exec (.lhu rd rs1 imm) s = .next t ∧ RegWrite s t rd (BitVec.ofNat 32 v))

/-- R183: a word load takes UnalignedAccess when misaligned; one whose access passes the checks writes the four bytes, the
lowest address least significant. -/
def Obligations.WordLoadWritesTheWord : Prop :=
  EncodedAs 0x707F#32 0x2003#32 (fun w => .lw (fieldRd w) (fieldRs1 w) (immI w)) ∧
  (∀ (s : State) (rd rs1 : RegIdx) (imm : Word), Misaligned s.cfg (s.effAddr rs1 imm) 4 →
    TakesUnaligned (.lw rd rs1 imm) s (s.effAddr rs1 imm) .word) ∧
  ∀ (s : State) (rd rs1 : RegIdx) (imm : Word), AccessOk s.cfg (s.effAddr rs1 imm) 4 →
    let a := (s.effAddr rs1 imm).toNat
    ∃ t, exec (.lw rd rs1 imm) s = .next t ∧
      RegWrite s t rd (Memory.get s.mem (a + 3) ++ Memory.get s.mem (a + 2) ++ Memory.get s.mem (a + 1) ++ Memory.get s.mem a)

/-- R180: the effective address is the sum modulo 2^32. -/
def Obligations.EffectiveAddressWraps : Prop :=
  ∀ (s : State) (rs1 : RegIdx) (imm : Word),
    ((s.effAddr rs1 imm).toNat : Int) = (signed (s.readReg rs1) + signed imm) % 2 ^ 32

/-- R180, R241, R242, R243, R247 with the spec's decisions D4, D11, D17 and D18 (logs 10, 5, 16, 13): a load whose access
fails a check takes the fault, alignment before bounds (the bounds check adds without wrapping), also when `rd = x0`, and
changes nothing but the status. -/
def Obligations.LoadsTakeAccessFaults : Prop :=
  ∀ (s : State) (rd rs1 : RegIdx) (imm : Word),
    let ea := s.effAddr rs1 imm
    (∀ (i : Instr) (width : Width),
      (i, width) ∈ [(.lb rd rs1 imm, .byte), (.lbu rd rs1 imm, .byte), (.lh rd rs1 imm, .half), (.lhu rd rs1 imm, .half),
        (.lw rd rs1 imm, Width.word)] →
      (Misaligned s.cfg ea width.bytes → ∃ t, exec i s = .next t ∧
        StatusOnly s t (.faulted (.unalignedAccess s.pc ea width .load (some (encode i))))) ∧
      (PastEnd s.cfg ea width.bytes → ∃ t, exec i s = .next t ∧
        StatusOnly s t (.faulted (.outOfBounds s.pc ea width .load (some (encode i))))))

/-- R191 to R193: a store whose access passes the checks writes the low bytes of `x[rs2]`, little-endian, and nothing else;
SB is never misaligned, SH and SW take UnalignedAccess when they are. -/
def Obligations.StoresWriteLowBytes : Prop :=
  EncodedAs 0x707F#32 0x0023#32 (fun w => .sb (fieldRs1 w) (fieldRs2 w) (immS w)) ∧
  EncodedAs 0x707F#32 0x1023#32 (fun w => .sh (fieldRs1 w) (fieldRs2 w) (immS w)) ∧
  EncodedAs 0x707F#32 0x2023#32 (fun w => .sw (fieldRs1 w) (fieldRs2 w) (immS w)) ∧
  ∀ (s : State) (rs1 rs2 : RegIdx) (imm : Word),
    let ea := s.effAddr rs1 imm
    let v := s.readReg rs2
    ¬ Misaligned s.cfg ea 1 ∧
    (Misaligned s.cfg ea 2 → TakesUnaligned (.sh rs1 rs2 imm) s ea .half) ∧
    (Misaligned s.cfg ea 4 → TakesUnaligned (.sw rs1 rs2 imm) s ea .word) ∧
    (AccessOk s.cfg ea 1 → ∃ t, exec (.sb rs1 rs2 imm) s = .next t ∧
      BytesStored s t ea.toNat [v.extractLsb' 0 8]) ∧
    (AccessOk s.cfg ea 2 → ∃ t, exec (.sh rs1 rs2 imm) s = .next t ∧
      BytesStored s t ea.toNat [v.extractLsb' 0 8, v.extractLsb' 8 8]) ∧
    (AccessOk s.cfg ea 4 → ∃ t, exec (.sw rs1 rs2 imm) s = .next t ∧
      BytesStored s t ea.toNat [v.extractLsb' 0 8, v.extractLsb' 8 8, v.extractLsb' 16 8, v.extractLsb' 24 8])

/-- R190, R241, R242, R243, R247 with the spec's decisions D4, D11 and D17 (logs 10, 5, 16): a store whose access fails a
check takes the fault, alignment before bounds (the bounds check adds without wrapping), and writes no byte. -/
def Obligations.StoresTakeAccessFaults : Prop :=
  ∀ (s : State) (rs1 rs2 : RegIdx) (imm : Word),
    let ea := s.effAddr rs1 imm
    (∀ (i : Instr) (width : Width),
      (i, width) ∈ [(.sb rs1 rs2 imm, .byte), (.sh rs1 rs2 imm, .half), (.sw rs1 rs2 imm, Width.word)] →
      (Misaligned s.cfg ea width.bytes → ∃ t, exec i s = .next t ∧
        StatusOnly s t (.faulted (.unalignedAccess s.pc ea width .store (some (encode i))))) ∧
      (PastEnd s.cfg ea width.bytes → ∃ t, exec i s = .next t ∧
        StatusOnly s t (.faulted (.outOfBounds s.pc ea width .store (some (encode i))))))

/-- R141 to R146: what ADDI, SLTI, SLTIU, XORI, ORI and ANDI write, and that they change nothing else. -/
def Obligations.ImmediateAluResults : Prop :=
  EncodedAs 0x707F#32 0x0013#32 (fun w => .addi (fieldRd w) (fieldRs1 w) (immI w)) ∧
  EncodedAs 0x707F#32 0x2013#32 (fun w => .slti (fieldRd w) (fieldRs1 w) (immI w)) ∧
  EncodedAs 0x707F#32 0x3013#32 (fun w => .sltiu (fieldRd w) (fieldRs1 w) (immI w)) ∧
  EncodedAs 0x707F#32 0x4013#32 (fun w => .xori (fieldRd w) (fieldRs1 w) (immI w)) ∧
  EncodedAs 0x707F#32 0x6013#32 (fun w => .ori (fieldRd w) (fieldRs1 w) (immI w)) ∧
  EncodedAs 0x707F#32 0x7013#32 (fun w => .andi (fieldRd w) (fieldRs1 w) (immI w)) ∧
  ∀ (s : State) (rd rs1 : RegIdx) (imm : Word),
    let a := s.readReg rs1
    (∃ t, exec (.addi rd rs1 imm) s = .next t ∧ RegWrite s t rd (BitVec.ofNat 32 ((a.toNat + imm.toNat) % 2 ^ 32))) ∧
    (∃ t, exec (.slti rd rs1 imm) s = .next t ∧ RegWrite s t rd (if signed a < signed imm then 1#32 else 0#32)) ∧
    (∃ t, exec (.sltiu rd rs1 imm) s = .next t ∧ RegWrite s t rd (if a.toNat < imm.toNat then 1#32 else 0#32)) ∧
    (∃ t, exec (.xori rd rs1 imm) s = .next t ∧ RegWrite s t rd (a ^^^ imm)) ∧
    (∃ t, exec (.ori rd rs1 imm) s = .next t ∧ RegWrite s t rd (a ||| imm)) ∧
    (∃ t, exec (.andi rd rs1 imm) s = .next t ∧ RegWrite s t rd (a &&& imm))

/-- R147, R148, R150: what SLLI, SRLI and SRAI write, and that they change nothing else; SLLI ignores `w[31:25]`, a funct7
that is neither SRLI's nor SRAI's has no handler. -/
def Obligations.ImmediateShiftResults : Prop :=
  EncodedAs 0x707F#32 0x1013#32 (fun w => .slli (fieldRd w) (fieldRs1 w) (fieldShamt w)) ∧
  EncodedAs 0xFE00707F#32 0x00005013#32 (fun w => .srli (fieldRd w) (fieldRs1 w) (fieldShamt w)) ∧
  EncodedAs 0xFE00707F#32 0x40005013#32 (fun w => .srai (fieldRd w) (fieldRs1 w) (fieldShamt w)) ∧
  (∀ w : Word, w &&& 0x707F#32 = 0x5013#32 → fieldFunct7 w ≠ 0x00#7 → fieldFunct7 w ≠ 0x20#7 → hasHandler w = false) ∧
  ∀ (s : State) (rd rs1 : RegIdx) (shamt : BitVec 5),
    let a := s.readReg rs1
    (∃ t, exec (.slli rd rs1 shamt) s = .next t ∧ RegWrite s t rd (BitVec.ofNat 32 (a.toNat * 2 ^ shamt.toNat % 2 ^ 32))) ∧
    (∃ t, exec (.srli rd rs1 shamt) s = .next t ∧ RegWrite s t rd (BitVec.ofNat 32 (a.toNat / 2 ^ shamt.toNat))) ∧
    (∃ t, exec (.srai rd rs1 shamt) s = .next t ∧ RegWrite s t rd (BitVec.ofInt 32 (signed a / 2 ^ shamt.toNat)))

/-- R161, R162, R164 to R166, R169, R170: what ADD, SUB, SLT, SLTU, XOR, OR and AND write, and that they change nothing
else; a funct7 that is neither ADD's nor SUB's has no handler. That SLT, SLTU, XOR, OR and AND ignore funct7 is the spec's
decision D7 (log 7). -/
def Obligations.RegisterAluResults : Prop :=
  EncodedAs 0xFE00707F#32 0x00000033#32 (fun w => .add (fieldRd w) (fieldRs1 w) (fieldRs2 w)) ∧
  EncodedAs 0xFE00707F#32 0x40000033#32 (fun w => .sub (fieldRd w) (fieldRs1 w) (fieldRs2 w)) ∧
  EncodedAs 0x707F#32 0x2033#32 (fun w => .slt (fieldRd w) (fieldRs1 w) (fieldRs2 w)) ∧
  EncodedAs 0x707F#32 0x3033#32 (fun w => .sltu (fieldRd w) (fieldRs1 w) (fieldRs2 w)) ∧
  EncodedAs 0x707F#32 0x4033#32 (fun w => .xor (fieldRd w) (fieldRs1 w) (fieldRs2 w)) ∧
  EncodedAs 0x707F#32 0x6033#32 (fun w => .or (fieldRd w) (fieldRs1 w) (fieldRs2 w)) ∧
  EncodedAs 0x707F#32 0x7033#32 (fun w => .and (fieldRd w) (fieldRs1 w) (fieldRs2 w)) ∧
  (∀ w : Word, w &&& 0x707F#32 = 0x0033#32 → fieldFunct7 w ≠ 0x00#7 → fieldFunct7 w ≠ 0x20#7 → hasHandler w = false) ∧
  ∀ (s : State) (rd rs1 rs2 : RegIdx),
    let a := s.readReg rs1
    let b := s.readReg rs2
    (∃ t, exec (.add rd rs1 rs2) s = .next t ∧ RegWrite s t rd (BitVec.ofNat 32 ((a.toNat + b.toNat) % 2 ^ 32))) ∧
    (∃ t, exec (.sub rd rs1 rs2) s = .next t ∧ RegWrite s t rd (BitVec.ofInt 32 ((a.toNat : Int) - b.toNat))) ∧
    (∃ t, exec (.slt rd rs1 rs2) s = .next t ∧ RegWrite s t rd (if signed a < signed b then 1#32 else 0#32)) ∧
    (∃ t, exec (.sltu rd rs1 rs2) s = .next t ∧ RegWrite s t rd (if a.toNat < b.toNat then 1#32 else 0#32)) ∧
    (∃ t, exec (.xor rd rs1 rs2) s = .next t ∧ RegWrite s t rd (a ^^^ b)) ∧
    (∃ t, exec (.or rd rs1 rs2) s = .next t ∧ RegWrite s t rd (a ||| b)) ∧
    (∃ t, exec (.and rd rs1 rs2) s = .next t ∧ RegWrite s t rd (a &&& b))

/-- R163, R167, R168: what SLL, SRL and SRA write, and that they change nothing else; a funct7 that is neither SRL's nor
SRA's has no handler, and the amount is `x[rs2] mod 32`. That SLL ignores funct7 is the spec's decision D7 (log 7). -/
def Obligations.RegisterShiftResults : Prop :=
  EncodedAs 0x707F#32 0x1033#32 (fun w => .sll (fieldRd w) (fieldRs1 w) (fieldRs2 w)) ∧
  EncodedAs 0xFE00707F#32 0x00005033#32 (fun w => .srl (fieldRd w) (fieldRs1 w) (fieldRs2 w)) ∧
  EncodedAs 0xFE00707F#32 0x40005033#32 (fun w => .sra (fieldRd w) (fieldRs1 w) (fieldRs2 w)) ∧
  (∀ w : Word, w &&& 0x707F#32 = 0x5033#32 → fieldFunct7 w ≠ 0x00#7 → fieldFunct7 w ≠ 0x20#7 → hasHandler w = false) ∧
  ∀ (s : State) (rd rs1 rs2 : RegIdx),
    let a := s.readReg rs1
    let sh := (s.readReg rs2).toNat % 32
    (∃ t, exec (.sll rd rs1 rs2) s = .next t ∧ RegWrite s t rd (BitVec.ofNat 32 (a.toNat * 2 ^ sh % 2 ^ 32))) ∧
    (∃ t, exec (.srl rd rs1 rs2) s = .next t ∧ RegWrite s t rd (BitVec.ofNat 32 (a.toNat / 2 ^ sh))) ∧
    (∃ t, exec (.sra rd rs1 rs2) s = .next t ∧ RegWrite s t rd (BitVec.ofInt 32 (signed a / 2 ^ sh)))

/-- R230: the zero word decodes to HALT, which stops the run and changes nothing else; that a cycle that fetches it leaves
`pc` at its address and `pc_next` four above is the spec's decision D23 (log 16). -/
def Obligations.HaltWordStopsTheRun : Prop :=
  decode 0#32 = .ok .halt ∧ (∀ s : State, ∃ t, exec .halt s = .next t ∧ StatusOnly s t (.halted .zeroWord)) ∧
  ∀ s : State, s.status = .running → s.pcNext >>> 1 ≠ s.cfg.haltSentinel >>> 1 → AccessOk s.cfg s.pcNext 4 →
    (∀ k < 4, Memory.get s.mem (s.pcNext.toNat + k) = 0#8) →
    step s = .next { s with pc := s.pcNext, pcNext := s.pcNext + 4#32, status := .halted .zeroWord }

/-- R231, R232 with the spec's decisions D6 and D11 (logs 6, 5): FENCE, FENCE.I, ECALL and EBREAK raise IllegalInstruction
with their word and change nothing else. -/
def Obligations.UnimplementedRowsRaiseIllegalInstruction : Prop :=
  EncodedAs 0x707F#32 0x000F#32 (fun w => .fence (w.extractLsb' 15 17) (w.extractLsb' 7 5)) ∧
  EncodedAs 0x707F#32 0x100F#32 (fun w => .fenceI (w.extractLsb' 15 17) (w.extractLsb' 7 5)) ∧
  EncodedAs 0xFFFFFFFF#32 0x00000073#32 (fun _ => .ecall) ∧ EncodedAs 0xFFFFFFFF#32 0x00100073#32 (fun _ => .ebreak) ∧
  ∀ (s : State) (hi : BitVec 17) (lo : BitVec 5),
    (∃ t, exec (.fence hi lo) s = .next t ∧
      StatusOnly s t (.faulted (.illegalInstruction s.pc (hi ++ 0b000#3 ++ lo ++ 0b0001111#7)))) ∧
    (∃ t, exec (.fenceI hi lo) s = .next t ∧
      StatusOnly s t (.faulted (.illegalInstruction s.pc (hi ++ 0b001#3 ++ lo ++ 0b0001111#7)))) ∧
    (∃ t, exec .ecall s = .next t ∧ StatusOnly s t (.faulted (.illegalInstruction s.pc 0x00000073#32))) ∧
    (∃ t, exec .ebreak s = .next t ∧ StatusOnly s t (.faulted (.illegalInstruction s.pc 0x00100073#32)))

/-! ## Frames over all instructions -/

/-- R35: an instruction changes no register but its destination, and no instruction changes `x[0]`. -/
def Obligations.OnlyTheDestinationRegisterChanges : Prop :=
  ∀ (i : Instr) (s t : State) (r : RegIdx), exec i s = .next t → (destination i ≠ some r ∨ r = 0) →
    t.readReg r = s.readReg r

/-- R35: an instruction's outcome depends on no register but its sources. With a register that is no source changed
beforehand, the outcome differs in that register alone, or not at all where the instruction completes and the register is
its destination. That the destination of a load whose access fails is not written, and so keeps the change, is R180 and R247
with the spec's decision D17 (log 16); which accesses fail, by a bounds check that adds without wrapping, its decision D4
(log 10). -/
def Obligations.OnlyTheSourceRegistersAreRead : Prop :=
  ∀ (i : Instr) (s : State) (r : RegIdx) (v : Word), r ∉ sources i →
    ∃ t, exec i s = .next t ∧
      (destination i ≠ some r → exec i (s.writeReg r v) = .next (t.writeReg r v)) ∧
      (destination i = some r → DataAccessOk i s → exec i (s.writeReg r v) = .next t) ∧
      (destination i = some r → ¬ DataAccessOk i s → exec i (s.writeReg r v) = .next (t.writeReg r v))

/-- R190, R55, R149, R160, R180, R200: every byte outside the range a store computes from its operands reads as before, and an instruction
that is no store leaves every byte. -/
def Obligations.OnlyStoresChangeMemoryWithinTheirRange : Prop :=
  ∀ (i : Instr) (s t : State) (a : Nat), exec i s = .next t →
    (∀ base n, storedRange i s = some (base, n) → (a < base ∨ base + n ≤ a)) →
    Memory.get t.mem a = Memory.get s.mem a

/-- R124: the cycle's default advance is `pc + 4`; no handler writes `pc`; only JAL, JALR and a taken branch write
`pc_next`. -/
def Obligations.OnlyControlTransfersOverridePcNext : Prop :=
  (∀ s : State, s.advance.pcNext = s.advance.pc + 4#32) ∧
  ∀ (i : Instr) (s t : State), exec i s = .next t →
    t.pc = s.pc ∧
    (t.pcNext = s.pcNext ∨ (∃ rd offset, i = .jal rd offset) ∨ (∃ rd rs1 imm, i = .jalr rd rs1 imm) ∨
      ∃ (c : BranchCond) (rs1 rs2 : RegIdx) (offset : Word), c.holds (s.readReg rs1) (s.readReg rs2) = true ∧
        t.pcNext = s.pc + offset ∧
        (c, i) ∈ [(.eq, .beq rs1 rs2 offset), (.ne, .bne rs1 rs2 offset), (.lt, .blt rs1 rs2 offset),
          (.ge, .bge rs1 rs2 offset), (.ltu, .bltu rs1 rs2 offset), (BranchCond.geu, .bgeu rs1 rs2 offset)])

/-- R6, R31: no step changes a construction parameter. -/
def Obligations.ParametersAreFixedForTheRun : Prop :=
  ∀ s t : State, step s = .next t → t.cfg = s.cfg

/-! ## The engine -/

/-- R120: with a well-formed instruction's word at the next address, a step of a running machine is that instruction's
meaning in the state whose pc pair has advanced. That the fetch makes both checks is the spec's decision D5 (log 11), that
the sum of the bounds check does not wrap its decision D4 (log 10). -/
def Obligations.StepRunsTheDecodedInstruction : Prop :=
  ∀ (s : State) (w : Word) (i : Instr), s.status = .running → s.pcNext >>> 1 ≠ s.cfg.haltSentinel >>> 1 →
    AccessOk s.cfg s.pcNext 4 →
    w = Memory.get s.mem (s.pcNext.toNat + 3) ++ Memory.get s.mem (s.pcNext.toNat + 2) ++
      Memory.get s.mem (s.pcNext.toNat + 1) ++ Memory.get s.mem s.pcNext.toNat →
    decode w = .ok i → step s = exec i { s with pc := s.pcNext, pcNext := s.pcNext + 4#32 }

/-- R120: the whole cycle of a running machine: the sentinel test, the advance, the fetch and its faults, the zero-word
test, IllegalInstruction, the handler. The sentinel test on every `pc_next` is the spec's decision D20 (log 15), the checks
of the fetch D5 and the unbounded sum D4 (logs 11, 10), the words without a handler D6 to D8 (logs 6 to 8), the state a
fault or the zero word leaves D17 and D23 (log 16). -/
def Obligations.CycleFollowsTheSpec : Prop :=
  ∀ s : State, s.status = .running →
    (s.pcNext &&& 0xFFFFFFFE#32 = s.cfg.haltSentinel &&& 0xFFFFFFFE#32 →
      step s = .next { s with status := .halted .sentinelReached }) ∧
    (s.pcNext &&& 0xFFFFFFFE#32 ≠ s.cfg.haltSentinel &&& 0xFFFFFFFE#32 →
      let s1 : State := { s with pc := s.pcNext, pcNext := s.pcNext + 4#32 }
      (Misaligned s.cfg s1.pc 4 →
        ∃ f, UnalignedAt f s1.pc .word ∧ step s = .next { s1 with status := .faulted f }) ∧
      (PastEnd s.cfg s1.pc 4 →
        ∃ f, OutOfBoundsAt f s1.pc .word ∧ step s = .next { s1 with status := .faulted f }) ∧
      (AccessOk s.cfg s1.pc 4 → ∃ w : Word,
        w.toNat = ∑ i ∈ Finset.range 4, (Memory.get s.mem (s1.pc.toNat + i)).toNat * 2 ^ (8 * i) ∧
        (w = 0#32 → step s = .next { s1 with status := .halted .zeroWord }) ∧
        (w ≠ 0#32 → hasHandler w = false →
          ∃ f, IllegalOf f w ∧ step s = .next { s1 with status := .faulted f }) ∧
        (w ≠ 0#32 → ∀ i, decode w = .ok i → step s = exec i s1)))

/-- R121 with the spec's decision D20 (log 15): a running machine halts with SentinelReached exactly when bits 31..1 of `pc_next` are the
sentinel's, before any fetch and with nothing else changed. -/
def Obligations.SentinelEndsTheRunBeforeAnyFetch : Prop :=
  ∀ s : State, s.status = .running → ∃ t, step s = .next t ∧
    (s.pcNext >>> 1 = s.cfg.haltSentinel >>> 1 → StatusOnly s t (.halted .sentinelReached)) ∧
    (s.pcNext >>> 1 ≠ s.cfg.haltSentinel >>> 1 → t.status ≠ .halted .sentinelReached)

/-- R29: a terminal status is never left and nothing changes any more, in one step or in many (log 4: the step of a
terminal state is the model's choice). -/
def Obligations.TerminalStatusIsFinal : Prop :=
  ∀ (n : Nat) (s : State), s.status ≠ .running → Host.Core.run Sys2Proof.core n s = .next s

/-- R246 in the model (log 4: the three run-time faults are next states): every step answers a next state. -/
def Obligations.EveryStepAnswersANextState : Prop :=
  ∀ s : State, ∃ t, step s = .next t

/-- R247 with the spec's decision D17 (log 16): a fault changes no register and no byte, and leaves the pc pair at the faulting
instruction. -/
def Obligations.FaultsArePrecise : Prop :=
  ∀ (s t : State) (f : Fault), s.status = .running → step s = .next t → t.status = .faulted f →
    SameRegs s t ∧ SameMem s t ∧ t.pc = s.pcNext ∧ t.pcNext = s.pcNext + 4#32

/-- R241 to R244 with the spec's decisions D11 (log 5), D17 (log 16, the state that is left) and D4, D6 to D8 (logs 10, 6 to
8, the causes): the record of every fault a step takes tells the truth of the state it left: the kind's cause holds; of a
fetch, the address is `pc` and the width 4; of a data access, the word is the fetched word and the address, width and kind
are the effective address, width and kind of the access its decoded instruction makes. -/
def Obligations.FaultRecordsTellTheTruth : Prop :=
  ∀ (s t : State) (f : Fault), s.status = .running → step s = .next t → t.status = .faulted f →
    FaultTrue t f

/-- R66: the word a running machine stores where it fetches next is what the next fetch reads. -/
def Obligations.StoreIsSeenByTheNextFetch : Prop :=
  ∀ (s t : State) (rs1 rs2 : RegIdx) (imm : Word), s.status = .running → exec (.sw rs1 rs2 imm) s = .next t →
    t.status = .running → s.effAddr rs1 imm = s.pcNext → t.advance.fetch = .ok (s.readReg rs2)

/-- R127, R234 with the spec's decisions D22 and D24 (log 18): a step is the same under every setting of the debug and extension toggles. -/
def Obligations.TogglesChangeNoStep : Prop :=
  ∀ (s : State) (debug m a f : Bool),
    ∃ t, step s = .next t ∧
      step { s with cfg := s.cfg.withToggles debug m a f } = .next { t with cfg := t.cfg.withToggles debug m a f }

/-- R278, R279: the host observes the 32 registers and all of memory exactly on Halted, the record exactly on Faulted. -/
def Obligations.HostObservesTheSnapshot : Prop :=
  ∀ s : State,
    (s.status = .running ↔ s.report = .inProgress) ∧
    (∀ cause, s.status = .halted cause ↔ ∃ snap, s.report = .halted cause snap) ∧
    (∀ f, s.status = .faulted f ↔ s.report = .faulted f) ∧
    (∀ cause snap, s.report = .halted cause snap →
      (∀ i : Fin 32, snap.regs[i] = s.readReg i) ∧ (∀ a, Memory.get snap.mem a = Memory.get s.mem a) ∧
        snap.capacity = s.cfg.capacity)

/-! ## Invariants -/

/-- The invariant holds of the reset state. -/
def Obligations.ResetMeetsTheInvariant : Prop := State.reset.Inv

/-- The invariant holds of every constructed machine whose capacity is in its range. -/
def Obligations.ConstructionEstablishesTheInvariant : Prop :=
  ∀ (c : Config) (image : Option (List Byte)) (t : State), c.wf → construct c image = .ok t → t.Inv

/-- Every step keeps the invariant: memory stays canonical and within the capacity, the pc pair stays even under an even
entry point (R26), and a terminal status tells how the run ended (R129, R241). The pc pair that an ending leaves is the
spec's decisions D17 and D23 (log 16), the fields of the record its decision D11 (log 5). -/
def Obligations.EveryStepKeepsTheInvariant : Prop :=
  ∀ s t : State, s.Inv → step s = .next t → t.Inv

/-- The invariant holds along every run of every constructed machine, whatever its image. Its clause on the ending rests on
the spec's decisions D17 and D23 (log 16) and D11 (log 5). -/
def Obligations.EveryRunKeepsTheInvariant : Prop :=
  ∀ (c : Config) (image : Option (List Byte)) (s t : State) (n : Nat), c.wf → construct c image = .ok s →
    Host.Core.run Sys2Proof.core n s = .next t → t.Inv

/-- R246, R249: no run leaves a fault behind: a run that is safe was safe at every earlier step. -/
def Obligations.SafeRunsAreSafeThroughout : Prop :=
  ∀ (n k : Nat) (s : State), SafeFor (n + k) s → SafeFor n s

/-! ## Encoding -/

/-- Decoding the word of a well-formed instruction gives the instruction back (R82 to R99). -/
def Obligations.DecodeOfEncodeIsTheInstruction : Prop :=
  ∀ i : Instr, WellFormed i = true → decode (encode i) = .ok i

/-- A word that decodes stands for a well-formed instruction and is that instruction's word in every bit the decoder does
not ignore (R96, R97). -/
def Obligations.DecodedWordIsTheEncodingInItsKeptBits : Prop :=
  ∀ (w : Word) (i : Instr), decode w = .ok i →
    WellFormed i = true ∧ w &&& keptBits i = encode i &&& keptBits i

/-- The decision tree of R106 and the opcode table say the same: for every word, the decoder's mnemonic is that of the
first row the word selects. -/
def Obligations.DecoderAgreesWithTheOpcodeTable : Prop :=
  ∀ w : Word, (decode w).toOption.map Instr.mnemonic =
    (opcodeTable.find? (fun r => w &&& r.mask == r.value)).map TableRow.mnemonic

/-- The table's rows are mutually exclusive: no word selects two. -/
def Obligations.NoWordSelectsTwoRows : Prop :=
  ∀ (w : Word) (r q : TableRow), r ∈ opcodeTable → q ∈ opcodeTable → w &&& r.mask = r.value → w &&& q.mask = q.value → r = q

/-- R100: the words that raise IllegalInstruction, by their fields, with the spec's decisions D6 (log 6, every other opcode),
D7 (log 7, the six OP groups that have a handler at every funct7) and D8 (log 8, JALR's funct3). -/
def Obligations.IllegalWordsAreExactlyThese : Prop :=
  ∀ w : Word, hasHandler w = false ↔
    w ≠ 0#32 ∧
    ((w.extractLsb' 0 7 ∉ [0x37#7, 0x17#7, 0x6F#7, 0x67#7, 0x63#7, 0x03#7, 0x23#7, 0x13#7, 0x33#7]) ∨
      (w.extractLsb' 0 7 = 0x67#7 ∧ w.extractLsb' 12 3 ≠ 0#3) ∨
      (w.extractLsb' 0 7 = 0x63#7 ∧ w.extractLsb' 12 3 ∈ [2#3, 3#3]) ∨
      (w.extractLsb' 0 7 = 0x03#7 ∧ w.extractLsb' 12 3 ∈ [3#3, 6#3, 7#3]) ∨
      (w.extractLsb' 0 7 = 0x23#7 ∧ w.extractLsb' 12 3 ∉ [0#3, 1#3, 2#3]) ∨
      (w.extractLsb' 0 7 = 0x13#7 ∧ w.extractLsb' 12 3 = 5#3 ∧ w.extractLsb' 25 7 ∉ [0x00#7, 0x20#7]) ∨
      (w.extractLsb' 0 7 = 0x33#7 ∧ w.extractLsb' 12 3 ∈ [0#3, 5#3] ∧ w.extractLsb' 25 7 ∉ [0x00#7, 0x20#7]))

/-- R86 to R91: which immediate the generator gives for each class, and every bit of it. -/
def Obligations.ImmediateBits : Prop :=
  (∀ w : Word,
    (w &&& 0x7F#32 ∈ [0x37#32, 0x17#32] → immGen w = some (immU w)) ∧
    (w &&& 0x7F#32 = 0x6F#32 → immGen w = some (immJ w)) ∧
    (w &&& 0x7F#32 ∈ [0x67#32, 0x03#32] → immGen w = some (immI w)) ∧
    (w &&& 0x7F#32 = 0x63#32 → immGen w = some (immB w)) ∧
    (w &&& 0x7F#32 = 0x23#32 → immGen w = some (immS w)) ∧
    (w &&& 0x7F#32 = 0x13#32 → immGen w =
      some (if w &&& 0x7000#32 = 0x1000#32 ∨ w &&& 0x7000#32 = 0x5000#32 then immShift w else immI w))) ∧
  ∀ (w : Word) (k : Nat), k < 32 →
    (immU w).getLsbD k = (if k < 12 then false else w.getLsbD k) ∧
    (immI w).getLsbD k = (if k ≤ 10 then w.getLsbD (k + 20) else w.getLsbD 31) ∧
    (immJ w).getLsbD k = (if k = 0 then false else if k ≤ 10 then w.getLsbD (k + 20) else if k = 11 then w.getLsbD 20
      else if k ≤ 19 then w.getLsbD k else w.getLsbD 31) ∧
    (immS w).getLsbD k = (if k ≤ 4 then w.getLsbD (k + 7) else if k ≤ 11 then w.getLsbD (k + 20) else w.getLsbD 31) ∧
    (immB w).getLsbD k = (if k = 0 then false else if k ≤ 4 then w.getLsbD (k + 7) else if k ≤ 10 then w.getLsbD (k + 20)
      else if k = 11 then w.getLsbD 7 else w.getLsbD 31) ∧
    (immShift w).getLsbD k = (if k ≤ 4 then w.getLsbD (k + 20) else false)

/-- R85 to R92: a decoded instruction that has a handler carries the immediate generator's output for its word, and none
where the generator gives no value. -/
def Obligations.DecoderUsesTheImmediateGenerator : Prop :=
  ∀ (w : Word) (i : Instr), decode w = .ok i → i.hasHandler = true → immediate i = immGen w

/-- A few words written out from the encoding tables (R82, R83, R94) decode to the instruction they stand for. -/
def Obligations.WrittenWordsDecode : Prop :=
  decode (0b0000000_00010_00001_000_00011_0110011#32) = .ok (.add 3 1 2) ∧
  decode (0b111111111100_00110_010_00101_0000011#32) = .ok (.lw 5 6 0xFFFFFFFC#32) ∧
  decode (0b1111111_00111_00110_010_11100_0100011#32) = .ok (.sw 6 7 0xFFFFFFFC#32) ∧
  decode (0b1111111_00111_00110_001_11001_1100011#32) = .ok (.bne 6 7 0xFFFFFFF8#32) ∧
  decode (0b1_1111111110_1_11111111_00000_1101111#32) = .ok (.jal 0 0xFFFFFFFC#32) ∧
  decode (0b10001001101010111101_00101_0110111#32) = .ok (.lui 5 0x89ABD000#32)
end

