-- ==== Sys2Proof/Laws/State.lean ====
section
/-! SUPPORT. The small lemmas of State: one per field per named update, and the register file's laws (10_state.md rules R22, R23). -/

namespace Sys2Proof.Machine

variable (s : State)

/-! ## Field by field -/

@[simp] theorem setPcNext_regs (v : Word) : (s.setPcNext v).regs = s.regs := rfl
@[simp] theorem setPcNext_pc (v : Word) : (s.setPcNext v).pc = s.pc := rfl
@[simp] theorem setPcNext_pcNext (v : Word) : (s.setPcNext v).pcNext = v := rfl
@[simp] theorem setPcNext_mem (v : Word) : (s.setPcNext v).mem = s.mem := rfl
@[simp] theorem setPcNext_status (v : Word) : (s.setPcNext v).status = s.status := rfl
@[simp] theorem setPcNext_cfg (v : Word) : (s.setPcNext v).cfg = s.cfg := rfl

@[simp] theorem advance_regs : s.advance.regs = s.regs := rfl
@[simp] theorem advance_pc : s.advance.pc = s.pcNext := rfl
@[simp] theorem advance_pcNext : s.advance.pcNext = s.pcNext + 4#32 := rfl
@[simp] theorem advance_mem : s.advance.mem = s.mem := rfl
@[simp] theorem advance_status : s.advance.status = s.status := rfl
@[simp] theorem advance_cfg : s.advance.cfg = s.cfg := rfl

@[simp] theorem setStatus_regs (st : Status) : (s.setStatus st).regs = s.regs := rfl
@[simp] theorem setStatus_pc (st : Status) : (s.setStatus st).pc = s.pc := rfl
@[simp] theorem setStatus_pcNext (st : Status) : (s.setStatus st).pcNext = s.pcNext := rfl
@[simp] theorem setStatus_mem (st : Status) : (s.setStatus st).mem = s.mem := rfl
@[simp] theorem setStatus_status (st : Status) : (s.setStatus st).status = st := rfl
@[simp] theorem setStatus_cfg (st : Status) : (s.setStatus st).cfg = s.cfg := rfl

@[simp] theorem setMem_regs (m : Memory) : (s.setMem m).regs = s.regs := rfl
@[simp] theorem setMem_pc (m : Memory) : (s.setMem m).pc = s.pc := rfl
@[simp] theorem setMem_pcNext (m : Memory) : (s.setMem m).pcNext = s.pcNext := rfl
@[simp] theorem setMem_mem (m : Memory) : (s.setMem m).mem = m := rfl
@[simp] theorem setMem_status (m : Memory) : (s.setMem m).status = s.status := rfl
@[simp] theorem setMem_cfg (m : Memory) : (s.setMem m).cfg = s.cfg := rfl

@[simp] theorem writeReg_pc (r : RegIdx) (v : Word) : (s.writeReg r v).pc = s.pc := by
  unfold State.writeReg; split <;> rfl
@[simp] theorem writeReg_pcNext (r : RegIdx) (v : Word) : (s.writeReg r v).pcNext = s.pcNext := by
  unfold State.writeReg; split <;> rfl
@[simp] theorem writeReg_mem (r : RegIdx) (v : Word) : (s.writeReg r v).mem = s.mem := by
  unfold State.writeReg; split <;> rfl
@[simp] theorem writeReg_status (r : RegIdx) (v : Word) : (s.writeReg r v).status = s.status := by
  unfold State.writeReg; split <;> rfl
@[simp] theorem writeReg_cfg (r : RegIdx) (v : Word) : (s.writeReg r v).cfg = s.cfg := by
  unfold State.writeReg; split <;> rfl

/-! ## The register file -/

/-- A register read depends on the registers alone. -/
theorem readReg_congr {s t : State} (h : s.regs = t.regs) (r : RegIdx) : s.readReg r = t.readReg r := by
  unfold State.readReg; split <;> simp [h]

@[simp] theorem readReg_setPcNext (v : Word) (r : RegIdx) : (s.setPcNext v).readReg r = s.readReg r := rfl
@[simp] theorem readReg_advance (r : RegIdx) : s.advance.readReg r = s.readReg r := rfl
@[simp] theorem readReg_setStatus (st : Status) (r : RegIdx) : (s.setStatus st).readReg r = s.readReg r := rfl
@[simp] theorem readReg_setMem (m : Memory) (r : RegIdx) : (s.setMem m).readReg r = s.readReg r := rfl

/-- `x[0]` reads 0 (R22). -/
@[simp] theorem readReg_zero : s.readReg 0 = 0#32 := rfl

/-- A write to `x[0]` is discarded (R23). -/
@[simp] theorem writeReg_zero (v : Word) : s.writeReg 0 v = s := rfl

/-- What a register reads after a write (R22, R23). -/
theorem readReg_writeReg (r q : RegIdx) (v : Word) :
    (s.writeReg r v).readReg q = if q = r ∧ r ≠ 0 then v else s.readReg q := by
  by_cases hr : r.val = 0
  · have hr0 : r = 0 := Fin.ext hr
    subst hr0
    simp
  · have hr0 : r ≠ 0 := fun h => hr (by simp [h])
    by_cases hq : q.val = 0
    · have hq0 : q = 0 := Fin.ext hq
      subst hq0
      simp [hr0.symm]
    · have hidx : (r.val - 1 = q.val - 1) ↔ q = r := by
        constructor
        · intro h; apply Fin.ext; omega
        · rintro rfl; rfl
      simp [State.readReg, State.writeReg, hr, hq, hr0, Vector.getElem_set, hidx]

/-- A register write leaves every other register. -/
theorem readReg_writeReg_of_ne {r q : RegIdx} (h : q ≠ r) (v : Word) : (s.writeReg r v).readReg q = s.readReg q := by
  rw [readReg_writeReg, if_neg (fun e => h e.1)]

/-- A register write changes the one register and nothing else. -/
theorem regWrite_writeReg (r : RegIdx) (v : Word) : RegWrite s (s.writeReg r v) r v where
  value := by
    rw [readReg_writeReg]
    by_cases h : r = 0
    · subst h; simp
    · simp [h]
  others q h := by rw [readReg_writeReg]; simp [h]
  pc := writeReg_pc s r v
  pcNext := writeReg_pcNext s r v
  mem a := by rw [writeReg_mem]
  status := writeReg_status s r v
  cfg := writeReg_cfg s r v

/-- Of two writes to one register the second counts. -/
@[simp] theorem writeReg_writeReg (r : RegIdx) (v u : Word) : (s.writeReg r v).writeReg r u = s.writeReg r u := by
  unfold State.writeReg
  split <;> simp

/-- Writes to two different registers may be made in either order. -/
theorem writeReg_comm {r q : RegIdx} (h : r ≠ q) (v u : Word) :
    (s.writeReg r v).writeReg q u = (s.writeReg q u).writeReg r v := by
  by_cases hr : r.val = 0
  · simp [State.writeReg, hr]
  · by_cases hq : q.val = 0
    · simp [State.writeReg, hq]
    · have hne : r.val - 1 ≠ q.val - 1 := fun e => h (Fin.ext (by omega))
      simp only [State.writeReg, hr, hq, dif_neg, not_false_eq_true]
      rw [Vector.set_comm _ _ hne]

@[simp] theorem writeReg_setPcNext (r : RegIdx) (v u : Word) :
    (s.setPcNext u).writeReg r v = (s.writeReg r v).setPcNext u := by
  unfold State.writeReg; split <;> rfl
@[simp] theorem writeReg_setStatus (r : RegIdx) (v : Word) (st : Status) :
    (s.setStatus st).writeReg r v = (s.writeReg r v).setStatus st := by
  unfold State.writeReg; split <;> rfl
@[simp] theorem writeReg_setMem (r : RegIdx) (v : Word) (m : Memory) :
    (s.setMem m).writeReg r v = (s.writeReg r v).setMem m := by
  unfold State.writeReg; split <;> rfl

end Sys2Proof.Machine
end

