-- ==== Sys2Proof/Laws/Alu.lean ====
section
/-! SUPPORT. The ALU's results as the arithmetic of 41_alu_immediate.md rule R140, and the cleared bit of JALR's target. -/

namespace Sys2Proof.Machine

theorem alu_add (a b : Word) : alu .add a b = BitVec.ofNat 32 ((a.toNat + b.toNat) % 2 ^ 32) := by
  apply BitVec.eq_of_toNat_eq
  simp [alu]

theorem alu_sub (a b : Word) : alu .sub a b = BitVec.ofInt 32 ((a.toNat : Int) - b.toNat) := by
  have h1 := a.isLt
  have h2 := b.isLt
  apply BitVec.eq_of_toNat_eq
  rw [alu, BitVec.toNat_sub, BitVec.toNat_ofInt]
  omega

theorem alu_sll (a b : Word) : alu .sll a b = BitVec.ofNat 32 (a.toNat * 2 ^ (b.toNat % 32) % 2 ^ 32) := by
  apply BitVec.eq_of_toNat_eq
  simp [alu, shiftAmount, Nat.shiftLeft_eq]

theorem alu_srl (a b : Word) : alu .srl a b = BitVec.ofNat 32 (a.toNat / 2 ^ (b.toNat % 32)) := by
  have h : a.toNat / 2 ^ (b.toNat % 32) < 2 ^ 32 := lt_of_le_of_lt (Nat.div_le_self _ _) a.isLt
  apply BitVec.eq_of_toNat_eq
  rw [BitVec.toNat_ofNat, Nat.mod_eq_of_lt h]
  simp [alu, shiftAmount, Nat.shiftRight_eq_div_pow]

theorem alu_sra (a b : Word) : alu .sra a b = BitVec.ofInt 32 (signed a / 2 ^ (b.toNat % 32)) := by
  have h1 : (-2147483648 : Int) ≤ signed a := BitVec.le_toInt a
  have h2 : signed a < 2147483648 := BitVec.toInt_lt (x := a)
  have hp : (0 : Int) < 2 ^ (b.toNat % 32) := by positivity
  have h3 : (-2147483648 : Int) ≤ signed a / 2 ^ (b.toNat % 32) := by
    rw [Int.le_ediv_iff_mul_le hp]; nlinarith
  have h4 : signed a / 2 ^ (b.toNat % 32) < 2147483648 := by
    rw [Int.ediv_lt_iff_lt_mul hp]; nlinarith
  apply BitVec.eq_of_toInt_eq
  rw [alu, BitVec.toInt_sshiftRight, shiftAmount, BitVec.toInt_ofInt, Int.shiftRight_eq_div_pow,
    Int.bmod_eq_of_le (by simpa using h3) (by simpa using h4)]
  simp

theorem alu_slt (a b : Word) : alu .slt a b = if signed a < signed b then 1#32 else 0#32 := by
  simp [alu, boolWord, ltSigned]

theorem alu_sltu (a b : Word) : alu .sltu a b = if a.toNat < b.toNat then 1#32 else 0#32 := by
  simp [alu, boolWord, ltUnsigned]

/-- Clearing bit 0 rounds down to an even value (R211). -/
theorem clear_bit0 (x : Word) : x &&& 0xFFFFFFFE#32 = BitVec.ofNat 32 (x.toNat / 2 * 2) := by
  have hm : ∀ k, k < 32 → (0xFFFFFFFE#32).getLsbD k = decide (1 ≤ k) := by decide
  have h : x &&& 0xFFFFFFFE#32 = x >>> 1 <<< 1 := by
    apply BitVec.eq_of_getLsbD_eq
    intro k hk
    rw [BitVec.getLsbD_and, hm k hk]
    rcases Nat.eq_zero_or_pos k with rfl | h
    · simp
    · have h1 : 1 + (k - 1) = k := by omega
      simp only [BitVec.getLsbD_shiftLeft, BitVec.getLsbD_ushiftRight, h1]
      simp [hk, Nat.one_le_iff_ne_zero.1 h, Nat.one_le_iff_ne_zero.2 (Nat.one_le_iff_ne_zero.1 h)]
  rw [h]
  apply BitVec.eq_of_toNat_eq
  simp [Nat.shiftLeft_eq, Nat.shiftRight_eq_div_pow]

/-- A cleared bit 0 leaves an even value. -/
theorem clear_bit0_even (x : Word) : (x &&& 0xFFFFFFFE#32).toNat % 2 = 0 := by
  have := x.isLt
  rw [clear_bit0, BitVec.toNat_ofNat]
  omega

/-- Two words agree after bit 0 is cleared exactly when bits 31..1 agree (R121). -/
theorem clear_bit0_eq_iff (x y : Word) : x &&& 0xFFFFFFFE#32 = y &&& 0xFFFFFFFE#32 ↔ x >>> 1 = y >>> 1 := by
  have hx := x.isLt
  have hy := y.isLt
  rw [clear_bit0, clear_bit0]
  simp only [← BitVec.toNat_inj, BitVec.toNat_ofNat, BitVec.toNat_ushiftRight, Nat.shiftRight_eq_div_pow]
  omega

end Sys2Proof.Machine
end

