-- ==== Sys2Proof/Laws/Decode.lean ====
section
/-! SUPPORT. The fields of an encoded word, an opcode row's mask and value as conditions on the fields, and the immediates of
encoded words (30_encoding.md rules R81 to R91). -/

namespace Sys2Proof

/-! ## Parts of an appended bit vector -/

theorem append_low {a b : Nat} (x : BitVec a) (y : BitVec b) : (x ++ y).extractLsb' 0 b = y := by
  ext i hi; simp [hi, BitVec.getLsbD_append]

theorem append_high {a b : Nat} (x : BitVec a) (y : BitVec b) (k n : Nat) :
    (x ++ y).extractLsb' (b + k) n = x.extractLsb' k n := by
  ext i hi
  simp only [BitVec.getElem_extractLsb', BitVec.getLsbD_append]
  rw [if_neg (by omega)]
  congr 1; omega

/-- The part just above the lowest one. -/
theorem append_part1 {a b c : Nat} (x : BitVec a) (y : BitVec b) (z : BitVec c) :
    (x ++ y ++ z).extractLsb' c b = y :=
  (append_high (x ++ y) z 0 b).trans (append_low x y)

theorem append_part2 {a b c d : Nat} (x : BitVec a) (y : BitVec b) (z : BitVec c) (u : BitVec d) :
    (x ++ y ++ z ++ u).extractLsb' (d + c) b = y :=
  (append_high (x ++ y ++ z) u c b).trans (append_part1 x y z)

theorem append_part3 {a b c d e : Nat} (x : BitVec a) (y : BitVec b) (z : BitVec c) (u : BitVec d) (v : BitVec e) :
    (x ++ y ++ z ++ u ++ v).extractLsb' (e + (d + c)) b = y :=
  (append_high (x ++ y ++ z ++ u) v (d + c) b).trans (append_part2 x y z u)

theorem append_part4 {a b c d e f : Nat} (x : BitVec a) (y : BitVec b) (z : BitVec c) (u : BitVec d) (v : BitVec e)
    (w : BitVec f) : (x ++ y ++ z ++ u ++ v ++ w).extractLsb' (f + (e + (d + c))) b = y :=
  (append_high (x ++ y ++ z ++ u ++ v) w (e + (d + c)) b).trans (append_part3 x y z u v)

theorem extract_all {n : Nat} (x : BitVec n) : x.extractLsb' 0 n = x := by
  ext i hi; simp

/-- A part of a part. -/
theorem extract_extract {n : Nat} (x : BitVec n) (a b c d : Nat) (h : c + d ≤ b) :
    (x.extractLsb' a b).extractLsb' c d = x.extractLsb' (a + c) d := by
  ext i hi
  simp only [BitVec.getElem_extractLsb', BitVec.getLsbD_extractLsb']
  rw [decide_eq_true (by omega : c + i < b), Bool.true_and, Nat.add_assoc]

/-! ## Classes and registers -/

/-- The opcode class of each class's own code. -/
@[simp] theorem opClass_code (c : OpClass) : opClass c.code = some c := by cases c <;> rfl

/-- An opcode of a class is the class's code. -/
theorem opClass_eq_some {op : BitVec 7} {c : OpClass} (h : opClass op = some c) : op = c.code := by
  unfold opClass at h
  repeat' split at h
  all_goals simp_all

@[simp] theorem toFin_regBits (r : RegIdx) : (regBits r).toFin = r := rfl

@[simp] theorem regBits_toFin (b : BitVec 5) : regBits b.toFin = b := rfl

/-! ## The six-part layout shared by the R, S and shift formats -/

section layout
variable (a : BitVec 7) (b c : BitVec 5) (d : BitVec 3) (e : BitVec 5) (f : BitVec 7)

theorem layout_part0 : (a ++ b ++ c ++ d ++ e ++ f : Word).extractLsb' 0 7 = f := append_low (a ++ b ++ c ++ d ++ e) f
theorem layout_part1 : (a ++ b ++ c ++ d ++ e ++ f : Word).extractLsb' 7 5 = e := append_part1 (a ++ b ++ c ++ d) e f
theorem layout_part2 : (a ++ b ++ c ++ d ++ e ++ f : Word).extractLsb' 12 3 = d := append_part2 (a ++ b ++ c) d e f
theorem layout_part3 : (a ++ b ++ c ++ d ++ e ++ f : Word).extractLsb' 15 5 = c := append_part3 (a ++ b) c d e f
theorem layout_part4 : (a ++ b ++ c ++ d ++ e ++ f : Word).extractLsb' 20 5 = b := append_part4 a b c d e f
theorem layout_part5 : (a ++ b ++ c ++ d ++ e ++ f : Word).extractLsb' 25 7 = a := by
  have h := append_high (a ++ b ++ c ++ d ++ e) f (5 + (3 + (5 + 5))) 7
  refine h.trans ?_
  refine (append_high (a ++ b ++ c ++ d) e (3 + (5 + 5)) 7).trans ?_
  refine (append_high (a ++ b ++ c) d (5 + 5) 7).trans ?_
  refine (append_high (a ++ b) c 5 7).trans ?_
  exact (append_high a b 0 7).trans (extract_all a)

end layout

/-! ## Fields of each format -/

section fields
variable (f7 : BitVec 7) (rs2 rs1 rd : RegIdx) (f3 : BitVec 3) (shamt : BitVec 5) (cls : OpClass) (imm : Word)

@[simp] theorem encodeR_opcode : fieldOpcode (encodeR f7 rs2 rs1 f3 rd cls) = cls.code := layout_part0 ..
@[simp] theorem encodeR_rd : fieldRd (encodeR f7 rs2 rs1 f3 rd cls) = rd := congrArg BitVec.toFin (layout_part1 ..)
@[simp] theorem encodeR_funct3 : fieldFunct3 (encodeR f7 rs2 rs1 f3 rd cls) = f3 := layout_part2 ..
@[simp] theorem encodeR_rs1 : fieldRs1 (encodeR f7 rs2 rs1 f3 rd cls) = rs1 := congrArg BitVec.toFin (layout_part3 ..)
@[simp] theorem encodeR_rs2 : fieldRs2 (encodeR f7 rs2 rs1 f3 rd cls) = rs2 := congrArg BitVec.toFin (layout_part4 ..)
@[simp] theorem encodeR_funct7 : fieldFunct7 (encodeR f7 rs2 rs1 f3 rd cls) = f7 := layout_part5 ..

@[simp] theorem encodeShift_opcode : fieldOpcode (encodeShift f7 shamt rs1 f3 rd) = OpClass.opImm.code := layout_part0 ..
@[simp] theorem encodeShift_rd : fieldRd (encodeShift f7 shamt rs1 f3 rd) = rd := congrArg BitVec.toFin (layout_part1 ..)
@[simp] theorem encodeShift_funct3 : fieldFunct3 (encodeShift f7 shamt rs1 f3 rd) = f3 := layout_part2 ..
@[simp] theorem encodeShift_rs1 : fieldRs1 (encodeShift f7 shamt rs1 f3 rd) = rs1 := congrArg BitVec.toFin (layout_part3 ..)
@[simp] theorem encodeShift_shamt : fieldShamt (encodeShift f7 shamt rs1 f3 rd) = shamt := layout_part4 ..
@[simp] theorem encodeShift_funct7 : fieldFunct7 (encodeShift f7 shamt rs1 f3 rd) = f7 := layout_part5 ..

@[simp] theorem encodeI_opcode : fieldOpcode (encodeI imm rs1 f3 rd cls) = cls.code :=
  append_low (imm.extractLsb' 0 12 ++ regBits rs1 ++ f3 ++ regBits rd) _
@[simp] theorem encodeI_rd : fieldRd (encodeI imm rs1 f3 rd cls) = rd :=
  congrArg BitVec.toFin (append_part1 (imm.extractLsb' 0 12 ++ regBits rs1 ++ f3) (regBits rd) cls.code)
@[simp] theorem encodeI_funct3 : fieldFunct3 (encodeI imm rs1 f3 rd cls) = f3 :=
  append_part2 (imm.extractLsb' 0 12 ++ regBits rs1) f3 (regBits rd) cls.code
@[simp] theorem encodeI_rs1 : fieldRs1 (encodeI imm rs1 f3 rd cls) = rs1 :=
  congrArg BitVec.toFin (append_part3 (imm.extractLsb' 0 12) (regBits rs1) f3 (regBits rd) cls.code)
theorem encodeI_imm : (encodeI imm rs1 f3 rd cls).extractLsb' 20 12 = imm.extractLsb' 0 12 := by
  refine (append_high (imm.extractLsb' 0 12 ++ regBits rs1 ++ f3 ++ regBits rd) cls.code (5 + (3 + 5)) 12).trans ?_
  refine (append_high (imm.extractLsb' 0 12 ++ regBits rs1 ++ f3) (regBits rd) (3 + 5) 12).trans ?_
  refine (append_high (imm.extractLsb' 0 12 ++ regBits rs1) f3 5 12).trans ?_
  exact (append_high (imm.extractLsb' 0 12) (regBits rs1) 0 12).trans (extract_all _)

@[simp] theorem encodeS_opcode : fieldOpcode (encodeS imm rs2 rs1 f3) = OpClass.store.code := layout_part0 ..
@[simp] theorem encodeS_funct3 : fieldFunct3 (encodeS imm rs2 rs1 f3) = f3 := layout_part2 ..
@[simp] theorem encodeS_rs1 : fieldRs1 (encodeS imm rs2 rs1 f3) = rs1 := congrArg BitVec.toFin (layout_part3 ..)
@[simp] theorem encodeS_rs2 : fieldRs2 (encodeS imm rs2 rs1 f3) = rs2 := congrArg BitVec.toFin (layout_part4 ..)
theorem encodeS_immLow : (encodeS imm rs2 rs1 f3).extractLsb' 7 5 = imm.extractLsb' 0 5 := layout_part1 ..
theorem encodeS_immHigh : (encodeS imm rs2 rs1 f3).extractLsb' 25 7 = imm.extractLsb' 5 7 := layout_part5 ..

/-- The B format regrouped as the six parts of the other formats. -/
theorem encodeB_eq : encodeB imm rs2 rs1 f3 =
    ((imm.extractLsb' 12 1 ++ imm.extractLsb' 5 6 : BitVec 7) ++ regBits rs2 ++ regBits rs1 ++ f3 ++
      (imm.extractLsb' 1 4 ++ imm.extractLsb' 11 1 : BitVec 5) ++ OpClass.branch.code : Word) := by
  unfold encodeB
  congr 1
  exact ((BitVec.append_assoc' ..).trans (BitVec.cast_eq rfl _)).symm

@[simp] theorem encodeB_opcode : fieldOpcode (encodeB imm rs2 rs1 f3) = OpClass.branch.code := by
  rw [encodeB_eq]; exact layout_part0 ..
@[simp] theorem encodeB_funct3 : fieldFunct3 (encodeB imm rs2 rs1 f3) = f3 := by
  rw [encodeB_eq]; exact layout_part2 ..
@[simp] theorem encodeB_rs1 : fieldRs1 (encodeB imm rs2 rs1 f3) = rs1 := by
  rw [encodeB_eq]; exact congrArg BitVec.toFin (layout_part3 ..)
@[simp] theorem encodeB_rs2 : fieldRs2 (encodeB imm rs2 rs1 f3) = rs2 := by
  rw [encodeB_eq]; exact congrArg BitVec.toFin (layout_part4 ..)
theorem encodeB_immLow : (encodeB imm rs2 rs1 f3).extractLsb' 7 5 =
    (imm.extractLsb' 1 4 ++ imm.extractLsb' 11 1 : BitVec 5) := by
  rw [encodeB_eq]; exact layout_part1 ..
theorem encodeB_immHigh : (encodeB imm rs2 rs1 f3).extractLsb' 25 7 =
    (imm.extractLsb' 12 1 ++ imm.extractLsb' 5 6 : BitVec 7) := by
  rw [encodeB_eq]; exact layout_part5 ..

@[simp] theorem encodeU_opcode : fieldOpcode (encodeU imm rd cls) = cls.code :=
  append_low (imm.extractLsb' 12 20 ++ regBits rd) _
@[simp] theorem encodeU_rd : fieldRd (encodeU imm rd cls) = rd :=
  congrArg BitVec.toFin (append_part1 (imm.extractLsb' 12 20) (regBits rd) cls.code)
theorem encodeU_imm : (encodeU imm rd cls).extractLsb' 12 20 = imm.extractLsb' 12 20 := by
  refine (append_high (imm.extractLsb' 12 20 ++ regBits rd) cls.code 5 20).trans ?_
  exact (append_high (imm.extractLsb' 12 20) (regBits rd) 0 20).trans (extract_all _)

@[simp] theorem encodeJ_opcode : fieldOpcode (encodeJ imm rd) = OpClass.jal.code := append_low _ _
@[simp] theorem encodeJ_rd : fieldRd (encodeJ imm rd) = rd :=
  congrArg BitVec.toFin (append_part1 _ (regBits rd) OpClass.jal.code)

@[simp] theorem encodeOpen_opcode (hi : BitVec 17) (lo : BitVec 5) (op : BitVec 7) :
    fieldOpcode (encodeOpen hi f3 lo op) = op := append_low (hi ++ f3 ++ lo) op
@[simp] theorem encodeOpen_funct3 (hi : BitVec 17) (lo : BitVec 5) (op : BitVec 7) :
    fieldFunct3 (encodeOpen hi f3 lo op) = f3 := append_part2 hi f3 lo op

end fields

/-! ## The immediates of encoded words -/

section immediates
variable (rs2 rs1 rd : RegIdx) (f3 : BitVec 3) (cls : OpClass) (imm : Word)

theorem immI_encodeI : immI (encodeI imm rs1 f3 rd cls) = (imm.extractLsb' 0 12).signExtend 32 := by
  rw [immI, encodeI_imm]

theorem immU_encodeU : immU (encodeU imm rd cls) = imm.extractLsb' 12 20 ++ 0#12 := by
  rw [immU, encodeU_imm]

theorem immS_encodeS : immS (encodeS imm rs2 rs1 f3) =
    (imm.extractLsb' 5 7 ++ imm.extractLsb' 0 5).signExtend 32 := by
  rw [immS, encodeS_immHigh, encodeS_immLow]

theorem immB_encodeB : immB (encodeB imm rs2 rs1 f3) =
    (imm.extractLsb' 12 1 ++ imm.extractLsb' 11 1 ++ imm.extractLsb' 5 6 ++ imm.extractLsb' 1 4 ++ 0#1).signExtend 32 := by
  have h1 : (encodeB imm rs2 rs1 f3).extractLsb' 31 1 = imm.extractLsb' 12 1 := by
    rw [← extract_extract _ 25 7 6 1 (by omega), encodeB_immHigh]
    exact (append_high _ _ 0 1).trans (extract_all _)
  have h2 : (encodeB imm rs2 rs1 f3).extractLsb' 25 6 = imm.extractLsb' 5 6 := by
    rw [← extract_extract _ 25 7 0 6 (by omega), encodeB_immHigh]
    exact append_low _ _
  have h3 : (encodeB imm rs2 rs1 f3).extractLsb' 8 4 = imm.extractLsb' 1 4 := by
    rw [← extract_extract _ 7 5 1 4 (by omega), encodeB_immLow]
    exact (append_high _ _ 0 4).trans (extract_all _)
  have h4 : (encodeB imm rs2 rs1 f3).extractLsb' 7 1 = imm.extractLsb' 11 1 := by
    rw [← extract_extract _ 7 5 0 1 (by omega), encodeB_immLow]
    exact append_low _ _
  rw [immB, h1, h2, h3, h4]

theorem immJ_encodeJ : immJ (encodeJ imm rd) =
    (imm.extractLsb' 20 1 ++ imm.extractLsb' 12 8 ++ imm.extractLsb' 11 1 ++ imm.extractLsb' 1 10 ++ 0#1).signExtend 32 := by
  have h1 : (encodeJ imm rd).extractLsb' 12 8 = imm.extractLsb' 12 8 := append_part2 (b := 8) _ _ _ _
  have h2 : (encodeJ imm rd).extractLsb' 20 1 = imm.extractLsb' 11 1 := append_part3 (b := 1) _ _ _ _ _
  have h3 : (encodeJ imm rd).extractLsb' 21 10 = imm.extractLsb' 1 10 := append_part4 (b := 10) _ _ _ _ _ _
  have h4 : (encodeJ imm rd).extractLsb' 31 1 = imm.extractLsb' 20 1 := by
    refine (append_high _ _ (5 + (8 + (1 + 10))) 1).trans ?_
    refine (append_high _ _ (8 + (1 + 10)) 1).trans ?_
    refine (append_high _ _ (1 + 10) 1).trans ?_
    refine (append_high _ _ 10 1).trans ?_
    exact (append_high _ _ 0 1).trans (extract_all _)
  rw [immJ, h1, h2, h3, h4]

end immediates

/-! ## A row's mask and value as conditions on the fields -/

/-- A field all of whose bits a mask keeps is the same before and after masking. -/
theorem extract_and (w m : Word) (lo n : Nat) (hm : ∀ k < n, m.getLsbD (lo + k) = true) :
    (w &&& m).extractLsb' lo n = w.extractLsb' lo n := by
  ext k hk
  simp [hm k hk]

/-- A bit of a word inside a field, from the field's value. -/
theorem bit_of_extract {w v : Word} {lo n : Nat} (h : w.extractLsb' lo n = v.extractLsb' lo n) {k : Nat}
    (h1 : lo ≤ k) (h2 : k < lo + n) : w.getLsbD k = v.getLsbD k := by
  have := congrArg (fun x => x.getLsbD (k - lo)) h
  simpa [BitVec.getLsbD_extractLsb', (by omega : k - lo < n), (by omega : lo + (k - lo) = k)] using this

/-- A masked word is a value if the two agree on the bits the mask keeps. -/
theorem and_eq_of_bits {w m v : Word} (hv : v &&& m = v)
    (h : ∀ k, k < 32 → m.getLsbD k = true → w.getLsbD k = v.getLsbD k) : w &&& m = v := by
  rw [← hv]
  ext k hk
  have := h k hk
  rw [← BitVec.getLsbD_eq_getElem, ← BitVec.getLsbD_eq_getElem, BitVec.getLsbD_and, BitVec.getLsbD_and]
  cases hm : m.getLsbD k with
  | false => simp
  | true => simp [this hm]

/-- The opcode alone is compared (R99). -/
theorem mask_opcode {w v : Word} (hv : v &&& 0x7F#32 = v) :
    w &&& 0x7F#32 = v ↔ fieldOpcode w = fieldOpcode v := by
  constructor
  · rintro rfl
    exact (extract_and w 0x7F#32 0 7 (by decide)).symm
  · intro h
    refine and_eq_of_bits hv (fun k hk hm => ?_)
    have hlt : k < 7 := (by decide : ∀ k, k < 32 → (0x7F#32).getLsbD k = true → k < 7) k hk hm
    exact bit_of_extract h (by omega) (by omega)

/-- Opcode and funct3 are compared (R94). -/
theorem mask_funct3 {w v : Word} (hv : v &&& 0x707F#32 = v) :
    w &&& 0x707F#32 = v ↔ fieldOpcode w = fieldOpcode v ∧ fieldFunct3 w = fieldFunct3 v := by
  constructor
  · rintro rfl
    exact ⟨(extract_and w 0x707F#32 0 7 (by decide)).symm, (extract_and w 0x707F#32 12 3 (by decide)).symm⟩
  · rintro ⟨h1, h2⟩
    refine and_eq_of_bits hv (fun k hk hm => ?_)
    have hlt : k < 7 ∨ (12 ≤ k ∧ k < 15) :=
      (by decide : ∀ k, k < 32 → (0x707F#32).getLsbD k = true → k < 7 ∨ (12 ≤ k ∧ k < 15)) k hk hm
    rcases hlt with h | h
    · exact bit_of_extract h1 (by omega) (by omega)
    · exact bit_of_extract h2 (by omega) (by omega)

/-- Opcode, funct3 and funct7 are compared (R95). -/
theorem mask_funct7 {w v : Word} (hv : v &&& 0xFE00707F#32 = v) :
    w &&& 0xFE00707F#32 = v ↔
      fieldOpcode w = fieldOpcode v ∧ fieldFunct3 w = fieldFunct3 v ∧ fieldFunct7 w = fieldFunct7 v := by
  constructor
  · rintro rfl
    exact ⟨(extract_and w 0xFE00707F#32 0 7 (by decide)).symm, (extract_and w 0xFE00707F#32 12 3 (by decide)).symm,
      (extract_and w 0xFE00707F#32 25 7 (by decide)).symm⟩
  · rintro ⟨h1, h2, h3⟩
    refine and_eq_of_bits hv (fun k hk hm => ?_)
    have hlt : k < 7 ∨ (12 ≤ k ∧ k < 15) ∨ (25 ≤ k ∧ k < 32) :=
      (by decide : ∀ k, k < 32 → (0xFE00707F#32).getLsbD k = true →
        k < 7 ∨ (12 ≤ k ∧ k < 15) ∨ (25 ≤ k ∧ k < 32)) k hk hm
    rcases hlt with h | h | h
    · exact bit_of_extract h1 (by omega) (by omega)
    · exact bit_of_extract h2 (by omega) (by omega)
    · exact bit_of_extract h3 (by omega) (by omega)

/-! ## Decoding by fields -/

/-- A word of one of the nine classes is not the zero word, so it is dispatched. -/
theorem decode_of_class {w : Word} {c : OpClass} (h : fieldOpcode w = c.code) : decode w = dispatch w := by
  unfold decode
  rw [if_neg]
  rintro rfl
  revert h
  cases c <;> decide

/-- A U immediate keeps the word's upper 20 bits in place (R86). -/
theorem immU_eq (w : Word) : immU w = w &&& 0xFFFFF000#32 := by
  apply BitVec.eq_of_getLsbD_eq
  intro k hk
  have hm : ∀ k, k < 32 → (0xFFFFF000#32).getLsbD k = decide (12 ≤ k) := by decide
  rw [BitVec.getLsbD_and, hm k hk, immU]
  refine (BitVec.getLsbD_append (n := 20) (m := 12)).trans ?_
  by_cases h : k < 12
  · simp [h, Nat.not_le.2 h]
  · simp [h, Nat.le_of_not_lt h, (by omega : k - 12 < 20), (by omega : 12 + (k - 12) = k)]

/-! ## A word from its fields -/

/-- Two neighbouring fields of a word make one field. -/
theorem append_fields (w : Word) (lo a b : Nat) :
    w.extractLsb' (lo + b) a ++ w.extractLsb' lo b = w.extractLsb' lo (a + b) := by
  ext i hi
  rw [BitVec.getElem_append]
  split
  · simp
  · simp only [BitVec.getElem_extractLsb']; congr 1; omega

theorem word_of_fields (w : Word) :
    (w.extractLsb' 25 7 ++ w.extractLsb' 20 5 ++ w.extractLsb' 15 5 ++ w.extractLsb' 12 3 ++ w.extractLsb' 7 5 ++
      w.extractLsb' 0 7 : Word) = w := by
  have h1 : (w.extractLsb' 25 7 ++ w.extractLsb' 20 5 : BitVec 12) = w.extractLsb' 20 12 := append_fields w 20 7 5
  have h2 : (w.extractLsb' 20 12 ++ w.extractLsb' 15 5 : BitVec 17) = w.extractLsb' 15 17 := append_fields w 15 12 5
  have h3 : (w.extractLsb' 15 17 ++ w.extractLsb' 12 3 : BitVec 20) = w.extractLsb' 12 20 := append_fields w 12 17 3
  have h4 : (w.extractLsb' 12 20 ++ w.extractLsb' 7 5 : BitVec 25) = w.extractLsb' 7 25 := append_fields w 7 20 5
  have h5 : (w.extractLsb' 7 25 ++ w.extractLsb' 0 7 : BitVec 32) = w.extractLsb' 0 32 := append_fields w 0 25 7
  rw [h1, h2, h3, h4, h5, extract_all]

/-- Low fields of a sign-extended value are those of the value. -/
theorem extract_signExtend {n : Nat} (x : BitVec n) (lo k : Nat) (hn : n ≤ 32) (h : lo + k ≤ n) :
    (x.signExtend 32).extractLsb' lo k = x.extractLsb' lo k := by
  ext i hi
  simp [BitVec.getElem_signExtend, BitVec.getLsbD_eq_getElem, (by omega : lo + i < 32), (by omega : lo + i < n)]

section fromFields
variable {w : Word} {f7 : BitVec 7} {f3 : BitVec 3} {cls : OpClass}

theorem encodeR_of_fields (h0 : fieldOpcode w = cls.code) (h3 : fieldFunct3 w = f3) (h7 : fieldFunct7 w = f7) :
    encodeR f7 (fieldRs2 w) (fieldRs1 w) f3 (fieldRd w) cls = w := by
  subst h3 h7
  rw [encodeR, ← h0]
  exact word_of_fields w

theorem encodeShift_of_fields (h0 : fieldOpcode w = OpClass.opImm.code) (h3 : fieldFunct3 w = f3)
    (h7 : fieldFunct7 w = f7) : encodeShift f7 (fieldShamt w) (fieldRs1 w) f3 (fieldRd w) = w := by
  subst h3 h7
  rw [encodeShift, ← h0]
  exact word_of_fields w

theorem encodeI_of_fields (h0 : fieldOpcode w = cls.code) (h3 : fieldFunct3 w = f3) :
    encodeI (immI w) (fieldRs1 w) f3 (fieldRd w) cls = w := by
  have h1 : (w.extractLsb' 25 7 ++ w.extractLsb' 20 5 : BitVec 12) = w.extractLsb' 20 12 := append_fields w 20 7 5
  have h2 : (immI w).extractLsb' 0 12 = w.extractLsb' 25 7 ++ w.extractLsb' 20 5 :=
    (extract_signExtend _ 0 12 (by omega) (by omega)).trans ((extract_all _).trans h1.symm)
  subst h3
  rw [encodeI, h2, ← h0]
  exact word_of_fields w

theorem encodeS_of_fields (h0 : fieldOpcode w = OpClass.store.code) (h3 : fieldFunct3 w = f3) :
    encodeS (immS w) (fieldRs2 w) (fieldRs1 w) f3 = w := by
  have h1 : (immS w).extractLsb' 5 7 = w.extractLsb' 25 7 :=
    (extract_signExtend _ 5 7 (by omega) (by omega)).trans ((append_high _ _ 0 7).trans (extract_all _))
  have h2 : (immS w).extractLsb' 0 5 = w.extractLsb' 7 5 :=
    (extract_signExtend _ 0 5 (by omega) (by omega)).trans (append_low _ _)
  subst h3
  rw [encodeS, h1, h2, ← h0]
  exact word_of_fields w

theorem encodeB_of_fields (h0 : fieldOpcode w = OpClass.branch.code) (h3 : fieldFunct3 w = f3) :
    encodeB (immB w) (fieldRs2 w) (fieldRs1 w) f3 = w := by
  have hs (lo k : Nat) (h : lo + k ≤ 13) := extract_signExtend
    (w.extractLsb' 31 1 ++ w.extractLsb' 7 1 ++ w.extractLsb' 25 6 ++ w.extractLsb' 8 4 ++ 0#1) lo k (by omega) h
  have h1 : (immB w).extractLsb' 12 1 = w.extractLsb' 31 1 := by
    refine (hs 12 1 (by omega)).trans ?_
    refine (append_high _ _ (4 + (6 + 1)) 1).trans ?_
    refine (append_high _ _ (6 + 1) 1).trans ?_
    refine (append_high _ _ 1 1).trans ?_
    exact (append_high _ _ 0 1).trans (extract_all _)
  have h2 : (immB w).extractLsb' 5 6 = w.extractLsb' 25 6 := (hs 5 6 (by omega)).trans (append_part2 (b := 6) _ _ _ _)
  have h3' : (immB w).extractLsb' 1 4 = w.extractLsb' 8 4 := (hs 1 4 (by omega)).trans (append_part1 (b := 4) _ _ _)
  have h4 : (immB w).extractLsb' 11 1 = w.extractLsb' 7 1 := (hs 11 1 (by omega)).trans (append_part3 (b := 1) _ _ _ _ _)
  have h5 : (w.extractLsb' 31 1 ++ w.extractLsb' 25 6 : BitVec 7) = w.extractLsb' 25 7 := append_fields w 25 1 6
  have h6 : (w.extractLsb' 8 4 ++ w.extractLsb' 7 1 : BitVec 5) = w.extractLsb' 7 5 := append_fields w 7 4 1
  subst h3
  rw [encodeB_eq, h1, h2, h3', h4, h5, h6, ← h0]
  exact word_of_fields w

theorem encodeU_of_fields (h0 : fieldOpcode w = cls.code) : encodeU (immU w) (fieldRd w) cls = w := by
  have h1 : (immU w).extractLsb' 12 20 = w.extractLsb' 12 20 := (append_high _ _ 0 20).trans (extract_all _)
  have h2 : (w.extractLsb' 12 20 ++ w.extractLsb' 7 5 : BitVec 25) = w.extractLsb' 7 25 := append_fields w 7 20 5
  have h3 : (w.extractLsb' 7 25 ++ w.extractLsb' 0 7 : BitVec 32) = w.extractLsb' 0 32 := append_fields w 0 25 7
  rw [encodeU, h1, ← h0]
  simp only [fieldRd, regBits_toFin, fieldOpcode]
  rw [h2, h3, extract_all]

theorem encodeJ_of_fields (h0 : fieldOpcode w = OpClass.jal.code) : encodeJ (immJ w) (fieldRd w) = w := by
  have hs (lo k : Nat) (h : lo + k ≤ 21) := extract_signExtend
    (w.extractLsb' 31 1 ++ w.extractLsb' 12 8 ++ w.extractLsb' 20 1 ++ w.extractLsb' 21 10 ++ 0#1) lo k (by omega) h
  have h1 : (immJ w).extractLsb' 20 1 = w.extractLsb' 31 1 := by
    refine (hs 20 1 (by omega)).trans ?_
    refine (append_high _ _ (10 + (1 + 8)) 1).trans ?_
    refine (append_high _ _ (1 + 8) 1).trans ?_
    refine (append_high _ _ 8 1).trans ?_
    exact (append_high _ _ 0 1).trans (extract_all _)
  have h2 : (immJ w).extractLsb' 1 10 = w.extractLsb' 21 10 := (hs 1 10 (by omega)).trans (append_part1 (b := 10) _ _ _)
  have h3 : (immJ w).extractLsb' 11 1 = w.extractLsb' 20 1 := (hs 11 1 (by omega)).trans (append_part2 (b := 1) _ _ _ _)
  have h4 : (immJ w).extractLsb' 12 8 = w.extractLsb' 12 8 := (hs 12 8 (by omega)).trans (append_part3 (b := 8) _ _ _ _ _)
  have g1 : (w.extractLsb' 31 1 ++ w.extractLsb' 21 10 : BitVec 11) = w.extractLsb' 21 11 := append_fields w 21 1 10
  have g2 : (w.extractLsb' 21 11 ++ w.extractLsb' 20 1 : BitVec 12) = w.extractLsb' 20 12 := append_fields w 20 11 1
  have g3 : (w.extractLsb' 20 12 ++ w.extractLsb' 12 8 : BitVec 20) = w.extractLsb' 12 20 := append_fields w 12 12 8
  have g4 : (w.extractLsb' 12 20 ++ w.extractLsb' 7 5 : BitVec 25) = w.extractLsb' 7 25 := append_fields w 7 20 5
  have g5 : (w.extractLsb' 7 25 ++ w.extractLsb' 0 7 : BitVec 32) = w.extractLsb' 0 32 := append_fields w 0 25 7
  rw [encodeJ, h1, h2, h3, h4, ← h0]
  simp only [fieldRd, regBits_toFin, fieldOpcode]
  rw [g1, g2, g3, g4, g5, extract_all]

theorem encodeOpen_of_fields {op : BitVec 7} (h0 : fieldOpcode w = op) (h3 : fieldFunct3 w = f3) :
    encodeOpen (w.extractLsb' 15 17) f3 (w.extractLsb' 7 5) op = w := by
  have g3 : (w.extractLsb' 15 17 ++ w.extractLsb' 12 3 : BitVec 20) = w.extractLsb' 12 20 := append_fields w 12 17 3
  have g4 : (w.extractLsb' 12 20 ++ w.extractLsb' 7 5 : BitVec 25) = w.extractLsb' 7 25 := append_fields w 7 20 5
  have g5 : (w.extractLsb' 7 25 ++ w.extractLsb' 0 7 : BitVec 32) = w.extractLsb' 0 32 := append_fields w 0 25 7
  subst h0 h3
  rw [encodeOpen]
  simp only [fieldFunct3, fieldOpcode]
  rw [g3, g4, g5, extract_all]

/-- Bits 24..0 of a word of the R layout do not depend on bits 31..25. -/
theorem kept_of_fields {v : Word} (h0 : fieldOpcode w = fieldOpcode v) (h1 : fieldRd w = fieldRd v)
    (h2 : fieldFunct3 w = fieldFunct3 v) (h3 : fieldRs1 w = fieldRs1 v) (h4 : fieldShamt w = fieldShamt v) :
    w &&& 0x01FFFFFF#32 = v &&& 0x01FFFFFF#32 := by
  refine and_eq_of_bits (by rw [BitVec.and_assoc]; rfl) (fun k hk hm => ?_)
  have hlt : k < 25 := (by decide : ∀ k, k < 32 → (0x01FFFFFF#32).getLsbD k = true → k < 25) k hk hm
  have hv : (v &&& 0x01FFFFFF#32).getLsbD k = v.getLsbD k := by rw [BitVec.getLsbD_and, hm, Bool.and_true]
  rw [hv]
  rcases (by omega : k < 7 ∨ 7 ≤ k ∧ k < 12 ∨ 12 ≤ k ∧ k < 15 ∨ 15 ≤ k ∧ k < 20 ∨ 20 ≤ k) with h | h | h | h | h
  · exact bit_of_extract h0 (by omega) (by omega)
  · exact bit_of_extract (BitVec.eq_of_toFin_eq h1) (by omega) (by omega)
  · exact bit_of_extract h2 (by omega) (by omega)
  · exact bit_of_extract (BitVec.eq_of_toFin_eq h3) (by omega) (by omega)
  · exact bit_of_extract h4 (by omega) (by omega)

theorem encodeR_kept (f7 : BitVec 7) (h0 : fieldOpcode w = cls.code) (h3 : fieldFunct3 w = f3) :
    w &&& 0x01FFFFFF#32 = encodeR f7 (fieldRs2 w) (fieldRs1 w) f3 (fieldRd w) cls &&& 0x01FFFFFF#32 :=
  kept_of_fields (by simpa using h0) (by simp) (by simpa using h3) (by simp) (layout_part4 ..).symm

theorem encodeShift_kept (f7 : BitVec 7) (h0 : fieldOpcode w = OpClass.opImm.code) (h3 : fieldFunct3 w = f3) :
    w &&& 0x01FFFFFF#32 = encodeShift f7 (fieldShamt w) (fieldRs1 w) f3 (fieldRd w) &&& 0x01FFFFFF#32 :=
  kept_of_fields (by simpa using h0) (by simp) (by simpa using h3) (by simp) (by simp)
end fromFields

/-! ## Ranges of the immediates -/

theorem even_of_extract {v : Word} (h : v.extractLsb' 0 1 = 0#1) : v.toNat % 2 = 0 := by
  have := congrArg BitVec.toNat h
  simpa using this

theorem immI_ok (w : Word) : immIOk (immI w) = true := by
  have h := BitVec.toInt_signExtend_of_le (x := w.extractLsb' 20 12) (v := 32) (by omega)
  have h1 := BitVec.le_toInt (w.extractLsb' 20 12)
  have h2 := BitVec.toInt_lt (x := w.extractLsb' 20 12)
  simp only [immIOk, immI, signed, h, Bool.and_eq_true, decide_eq_true_iff]
  omega

theorem immS_ok (w : Word) : immIOk (immS w) = true := by
  have h := BitVec.toInt_signExtend_of_le (x := (w.extractLsb' 25 7 ++ w.extractLsb' 7 5 : BitVec 12)) (v := 32) (by omega)
  have h1 := BitVec.le_toInt (w.extractLsb' 25 7 ++ w.extractLsb' 7 5 : BitVec 12)
  have h2 := BitVec.toInt_lt (x := (w.extractLsb' 25 7 ++ w.extractLsb' 7 5 : BitVec 12))
  have h' : (immS w).toInt = _ := h
  simp only [immIOk, signed, h', Bool.and_eq_true, decide_eq_true_iff]
  omega

theorem immB_ok (w : Word) : immBOk (immB w) = true := by
  have he : (immB w).extractLsb' 0 1 = 0#1 :=
    (extract_signExtend _ 0 1 (by omega) (by omega)).trans (append_low _ _)
  have h := BitVec.toInt_signExtend_of_le (v := 32) (by omega) (x :=
    (w.extractLsb' 31 1 ++ w.extractLsb' 7 1 ++ w.extractLsb' 25 6 ++ w.extractLsb' 8 4 ++ 0#1))
  have h1 := BitVec.le_toInt (w.extractLsb' 31 1 ++ w.extractLsb' 7 1 ++ w.extractLsb' 25 6 ++ w.extractLsb' 8 4 ++ 0#1)
  have h2 := BitVec.toInt_lt (x := (w.extractLsb' 31 1 ++ w.extractLsb' 7 1 ++ w.extractLsb' 25 6 ++ w.extractLsb' 8 4 ++ 0#1))
  have h' : (immB w).toInt = _ := h
  have hz := even_of_extract he
  have h3 : (immB w).toInt % 2 = 0 := by rw [BitVec.toInt_eq_toNat_cond]; split <;> omega
  simp only [immBOk, signed, Bool.and_eq_true, decide_eq_true_iff]
  refine ⟨⟨?_, ?_⟩, hz⟩ <;> omega

theorem immJ_ok (w : Word) : immJOk (immJ w) = true := by
  have he : (immJ w).extractLsb' 0 1 = 0#1 :=
    (extract_signExtend _ 0 1 (by omega) (by omega)).trans (append_low _ _)
  have h := BitVec.toInt_signExtend_of_le (v := 32) (by omega) (x :=
    (w.extractLsb' 31 1 ++ w.extractLsb' 12 8 ++ w.extractLsb' 20 1 ++ w.extractLsb' 21 10 ++ 0#1))
  have h1 := BitVec.le_toInt (w.extractLsb' 31 1 ++ w.extractLsb' 12 8 ++ w.extractLsb' 20 1 ++ w.extractLsb' 21 10 ++ 0#1)
  have h2 := BitVec.toInt_lt (x := (w.extractLsb' 31 1 ++ w.extractLsb' 12 8 ++ w.extractLsb' 20 1 ++ w.extractLsb' 21 10 ++ 0#1))
  have h' : (immJ w).toInt = _ := h
  have hz := even_of_extract he
  have h3 : (immJ w).toInt % 2 = 0 := by rw [BitVec.toInt_eq_toNat_cond]; split <;> omega
  simp only [immJOk, signed, Bool.and_eq_true, decide_eq_true_iff]
  refine ⟨⟨?_, ?_⟩, hz⟩ <;> omega

theorem immU_ok (w : Word) : immUOk (immU w) = true := by
  simp only [immUOk, immU, BitVec.toNat_append]
  simp [Nat.shiftLeft_eq]

/-! ## What a decoded word is -/

/-- A field whose value is a numeral. -/
theorem funct3_of_toNat {w : Word} {n : Nat} (h : (fieldFunct3 w).toNat = n) : fieldFunct3 w = BitVec.ofNat 3 n := by
  apply BitVec.eq_of_toNat_eq; rw [← h]; simp
theorem funct7_of_toNat {w : Word} {n : Nat} (h : (fieldFunct7 w).toNat = n) : fieldFunct7 w = BitVec.ofNat 7 n := by
  apply BitVec.eq_of_toNat_eq; rw [← h]; simp

/-- The last funct3 value of a group that has named the seven others. -/
theorem funct3_last {w : Word} (h0 : (fieldFunct3 w).toNat ≠ 0) (h1 : (fieldFunct3 w).toNat ≠ 1)
    (h2 : (fieldFunct3 w).toNat ≠ 2) (h3 : (fieldFunct3 w).toNat ≠ 3) (h4 : (fieldFunct3 w).toNat ≠ 4)
    (h6 : (fieldFunct3 w).toNat ≠ 6) (h7 : (fieldFunct3 w).toNat ≠ 7) : fieldFunct3 w = 0b101#3 :=
  funct3_of_toNat (by have := (fieldFunct3 w).isLt; omega)

end Sys2Proof

namespace Sys2Proof.Machine

/-- A row that compares the opcode alone (R99). -/
theorem encodedAs_opcode {v : Word} {c : OpClass} {mk : Word → Instr} (hv : v &&& 0x7F#32 = v)
    (hc : fieldOpcode v = c.code) (h : ∀ w, fieldOpcode w = c.code → dispatch w = .ok (mk w)) :
    EncodedAs 0x7F#32 v mk := by
  intro w hw
  have hw' := ((mask_opcode hv).1 hw).trans hc
  rw [decode_of_class hw', h w hw']

/-- A row that compares opcode and funct3 (R94). -/
theorem encodedAs_funct3 {v : Word} {c : OpClass} {mk : Word → Instr} (hv : v &&& 0x707F#32 = v)
    (hc : fieldOpcode v = c.code)
    (h : ∀ w, fieldOpcode w = c.code → fieldFunct3 w = fieldFunct3 v → dispatch w = .ok (mk w)) :
    EncodedAs 0x707F#32 v mk := by
  intro w hw
  obtain ⟨h1, h2⟩ := (mask_funct3 hv).1 hw
  rw [decode_of_class (h1.trans hc), h w (h1.trans hc) h2]

/-- A row that compares opcode, funct3 and funct7 (R95). -/
theorem encodedAs_funct7 {v : Word} {c : OpClass} {mk : Word → Instr} (hv : v &&& 0xFE00707F#32 = v)
    (hc : fieldOpcode v = c.code)
    (h : ∀ w, fieldOpcode w = c.code → fieldFunct3 w = fieldFunct3 v → fieldFunct7 w = fieldFunct7 v →
      dispatch w = .ok (mk w)) :
    EncodedAs 0xFE00707F#32 v mk := by
  intro w hw
  obtain ⟨h1, h2, h3⟩ := (mask_funct7 hv).1 hw
  rw [decode_of_class (h1.trans hc), h w (h1.trans hc) h2 h3]

end Sys2Proof.Machine
end

