-- ==== Sys2Proof/Laws/Memory.lean ====
section
/-! SUPPORT. The memory's laws: byte order, read after write, and that every operation keeps the canonical form
(20_memory.md rules R54 to R57). -/

namespace Sys2Proof

/-! ## Byte order -/

@[simp] theorem bytesLE_length (n v : Nat) : (bytesLE n v).length = n := by
  induction n generalizing v with
  | zero => rfl
  | succ n ih => simp [bytesLE, ih]

/-- The value of the little-endian bytes of a number is the number in their width. -/
theorem valueLE_bytesLE (n v : Nat) : valueLE (bytesLE n v) = v % 2 ^ (8 * n) := by
  induction n generalizing v with
  | zero => simp [bytesLE, valueLE, Nat.mod_one]
  | succ n ih =>
    have h : 2 ^ (8 * (n + 1)) = 256 * 2 ^ (8 * n) := by rw [Nat.mul_add, Nat.pow_add]; omega
    rw [bytesLE, valueLE, ih, h, Nat.mod_mul]
    simp

theorem valueLE_lt (bs : List Byte) : valueLE bs < 2 ^ (8 * bs.length) := by
  induction bs with
  | nil => simp [valueLE]
  | cons b bs ih =>
    have hb := b.isLt
    have h : 2 ^ (8 * (bs.length + 1)) = 256 * 2 ^ (8 * bs.length) := by rw [Nat.mul_add, Nat.pow_add]; omega
    rw [valueLE, List.length_cons, h]
    omega

/-- Byte `k` of the little-endian bytes of a number. -/
theorem bytesLE_getElem (n v k : Nat) (h : k < (bytesLE n v).length) :
    (bytesLE n v)[k] = BitVec.ofNat 8 (v / 2 ^ (8 * k)) := by
  induction n generalizing v k with
  | zero => simp [bytesLE] at h
  | succ n ih =>
    cases k with
    | zero => simp [bytesLE]
    | succ k =>
      simp only [bytesLE, List.getElem_cons_succ]
      rw [ih]
      congr 1
      rw [Nat.div_div_eq_div_mul, Nat.mul_add, Nat.pow_add, Nat.mul_comm]

/-- Byte `k` of a word's little-endian bytes is its bits `8k+7 .. 8k` (R55). -/
theorem bytesLE_word_getElem (n k : Nat) (v : Word) (h : k < (bytesLE n v.toNat).length) :
    (bytesLE n v.toNat)[k] = v.extractLsb' (8 * k) 8 := by
  rw [bytesLE_getElem]
  apply BitVec.eq_of_toNat_eq
  simp [BitVec.extractLsb'_toNat, Nat.shiftRight_eq_div_pow]

namespace Machine

/-! ## One byte -/

@[simp] theorem get_nil (a : Nat) : Memory.get [] a = Memory.fill := rfl

theorem get_erase (m : Memory) (a b : Nat) :
    Memory.get (Memory.erase m a) b = if b = a then Memory.fill else Memory.get m b := by
  induction m with
  | nil => simp [Memory.erase]
  | cons c m ih =>
    unfold Memory.erase at ih ⊢
    by_cases hc : c.1 = a
    · simp only [List.filter_cons, hc, bne_self_eq_false, Bool.false_eq_true, ↓reduceIte, ih]
      by_cases hb : b = a
      · simp [hb]
      · simp [hb, Memory.get, hc, Ne.symm hb]
    · have hc' : (c.1 != a) = true := by simpa using hc
      simp only [List.filter_cons, hc', ↓reduceIte, Memory.get, ih]
      by_cases hb : c.1 = b
      · have : b ≠ a := fun h => hc (hb.trans h)
        simp [hb, this]
      · simp [hb]

theorem get_insertCell (m : Memory) (a b : Nat) (v : Byte) (h : ∀ c ∈ m, c.1 ≠ a) :
    Memory.get (Memory.insertCell m a v) b = if b = a then v else Memory.get m b := by
  induction m with
  | nil => simp [Memory.insertCell, Memory.get, eq_comm]
  | cons c m ih =>
    unfold Memory.insertCell
    split
    · simp [Memory.get, eq_comm]
    · have hc : c.1 ≠ a := h c (by simp)
      simp only [Memory.get, ih (fun d hd => h d (by simp [hd]))]
      by_cases hb : c.1 = b
      · have : b ≠ a := fun e => hc (hb.trans e)
        simp [hb, this]
      · simp [hb]

theorem erase_ne (m : Memory) (a : Nat) : ∀ c ∈ Memory.erase m a, c.1 ≠ a := by
  intro c hc
  simp only [Memory.erase, List.mem_filter, bne_iff_ne] at hc
  exact hc.2

/-- What an address reads after one byte is written: the byte there, every other address as before. -/
theorem get_set (m : Memory) (a b : Nat) (v : Byte) :
    Memory.get (Memory.set m a v) b = if b = a then v else Memory.get m b := by
  unfold Memory.set
  split
  · next hv => rw [get_erase, hv]
  · rw [get_insertCell _ _ _ _ (erase_ne m a), get_erase]
    by_cases hb : b = a <;> simp [hb]

/-! ## The canonical form is kept -/

theorem erase_wf {m : Memory} (h : Memory.wf m) (a : Nat) : Memory.wf (Memory.erase m a) :=
  ⟨h.1.filter _, fun c hc => h.2 c (List.mem_filter.1 hc).1⟩

theorem mem_insertCell {m : Memory} {a : Nat} {v : Byte} {c : Host.Cell} :
    c ∈ Memory.insertCell m a v ↔ c = (a, v) ∨ c ∈ m := by
  induction m with
  | nil => simp [Memory.insertCell]
  | cons d m ih =>
    unfold Memory.insertCell
    split
    · simp
    · simp only [List.mem_cons, ih]; tauto

theorem insertCell_wf {m : Memory} (h : Memory.wf m) {a : Nat} {v : Byte} (hv : v ≠ Memory.fill)
    (ha : ∀ c ∈ m, c.1 ≠ a) : Memory.wf (Memory.insertCell m a v) := by
  refine ⟨?_, fun c hc => ?_⟩
  · have hp := h.1
    clear h
    induction m with
    | nil => simp [Memory.insertCell]
    | cons d m ih =>
      rw [List.pairwise_cons] at hp
      unfold Memory.insertCell
      split
      · next hlt =>
        rw [List.pairwise_cons, List.pairwise_cons]
        refine ⟨fun e he => ?_, hp⟩
        rcases List.mem_cons.1 he with rfl | he
        · exact hlt
        · exact lt_trans hlt (hp.1 e he)
      · next hle =>
        rw [List.pairwise_cons]
        refine ⟨fun e he => ?_, ih (fun c hc => ha c (by simp [hc])) hp.2⟩
        rcases mem_insertCell.1 he with rfl | he
        · have : d.1 ≠ a := ha d (by simp)
          show d.1 < a
          omega
        · exact hp.1 e he
  · rcases mem_insertCell.1 hc with rfl | hc
    · exact hv
    · exact h.2 c hc

/-- Writing a byte keeps the canonical form. -/
theorem set_wf {m : Memory} (h : Memory.wf m) (a : Nat) (v : Byte) : Memory.wf (Memory.set m a v) := by
  unfold Memory.set
  split
  · exact erase_wf h a
  · next hv => exact insertCell_wf (erase_wf h a) hv (erase_ne m a)

/-- Writing a byte below the capacity lists no address past it. -/
theorem set_within {m : Memory} {n : Nat} (h : Memory.within m n) {a : Nat} (ha : a < n) (v : Byte) :
    Memory.within (Memory.set m a v) n := by
  have he : Memory.within (Memory.erase m a) n := fun c hc => h c (List.mem_filter.1 hc).1
  unfold Memory.set
  split
  · exact he
  · intro c hc
    rcases mem_insertCell.1 hc with rfl | hc
    · exact ha
    · exact he c hc

/-! ## Several bytes -/

/-- Writing bytes keeps the canonical form. -/
theorem setBytes_wf {m : Memory} (h : Memory.wf m) (a : Nat) (bs : List Byte) : Memory.wf (Memory.setBytes m a bs) := by
  induction bs generalizing m a with
  | nil => exact h
  | cons b bs ih => exact ih (set_wf h a b) (a + 1)

theorem setBytes_within {m : Memory} {n : Nat} (h : Memory.within m n) (a : Nat) (bs : List Byte)
    (ha : a + bs.length ≤ n) : Memory.within (Memory.setBytes m a bs) n := by
  induction bs generalizing m a with
  | nil => exact h
  | cons b bs ih =>
    rw [List.length_cons] at ha
    exact ih (set_within h (by omega) b) (a + 1) (by omega)

/-- An address outside the bytes written reads as before. -/
theorem get_setBytes_outside (m : Memory) (a : Nat) (bs : List Byte) (b : Nat) (h : b < a ∨ a + bs.length ≤ b) :
    Memory.get (Memory.setBytes m a bs) b = Memory.get m b := by
  induction bs generalizing m a with
  | nil => rfl
  | cons v bs ih =>
    rw [List.length_cons] at h
    rw [Memory.setBytes, ih _ _ (by omega), get_set, if_neg (by omega)]

/-- An address inside the bytes written reads the byte written. -/
theorem get_setBytes_inside (m : Memory) (a : Nat) (bs : List Byte) (k : Nat) (h : k < bs.length) :
    Memory.get (Memory.setBytes m a bs) (a + k) = bs[k] := by
  induction bs generalizing m a k with
  | nil => simp at h
  | cons v bs ih =>
    cases k with
    | zero => rw [Memory.setBytes, get_setBytes_outside _ _ _ _ (by omega), get_set]; simp
    | succ k =>
      rw [Memory.setBytes, show a + (k + 1) = (a + 1) + k by omega, ih]
      rfl

@[simp] theorem getBytes_length (m : Memory) (a n : Nat) : (Memory.getBytes m a n).length = n := by
  induction n generalizing a with
  | zero => rfl
  | succ n ih => simp [Memory.getBytes, ih]

/-- Reading depends only on the bytes read. -/
theorem getBytes_congr {m k : Memory} {a n : Nat} (h : ∀ b, a ≤ b → b < a + n → Memory.get m b = Memory.get k b) :
    Memory.getBytes m a n = Memory.getBytes k a n := by
  induction n generalizing a with
  | zero => rfl
  | succ n ih =>
    rw [Memory.getBytes, Memory.getBytes, h a (by omega) (by omega), ih (fun b h1 h2 => h b (by omega) (by omega))]

/-- Reading what was written gives the bytes back. -/
theorem getBytes_setBytes (m : Memory) (a : Nat) (bs : List Byte) :
    Memory.getBytes (Memory.setBytes m a bs) a bs.length = bs := by
  induction bs generalizing m a with
  | nil => rfl
  | cons b bs ih =>
    rw [List.length_cons, Memory.getBytes, Memory.setBytes, ih, get_setBytes_outside _ _ _ _ (by omega), get_set]
    simp

/-- The value of the bytes read is the spec's sum (R54). -/
theorem valueLE_getBytes (m : Memory) (a n : Nat) :
    valueLE (Memory.getBytes m a n) = ∑ i ∈ Finset.range n, (Memory.get m (a + i)).toNat * 2 ^ (8 * i) := by
  induction n generalizing a with
  | zero => rfl
  | succ n ih =>
    rw [Memory.getBytes, valueLE, ih, Finset.sum_range_succ', Finset.mul_sum]
    simp only [Nat.mul_zero, Nat.pow_zero, Nat.mul_one, Nat.add_zero]
    rw [Nat.add_comm]
    congr 1
    apply Finset.sum_congr rfl
    intro i _
    rw [show a + 1 + i = a + (i + 1) by omega, show 8 * (i + 1) = 8 * i + 8 by omega, Nat.pow_add]
    ring

/-! ## Reads of one width -/

theorem width_bytes_le (w : Width) : w.bytes ≤ 4 := by cases w <;> decide

/-- What a read assembles fits a word. -/
theorem valueLE_getBytes_lt (m : Memory) (a : Nat) (w : Width) : valueLE (Memory.getBytes m a w.bytes) < 2 ^ 32 := by
  refine lt_of_lt_of_le (valueLE_lt _) (Nat.pow_le_pow_right (by omega) ?_)
  have := width_bytes_le w
  rw [getBytes_length]
  omega

theorem valueLE_getBytes_one (m : Memory) (a : Nat) : valueLE (Memory.getBytes m a 1) = (Memory.get m a).toNat := by
  simp [Memory.getBytes, valueLE]

theorem valueLE_getBytes_two (m : Memory) (a : Nat) :
    valueLE (Memory.getBytes m a 2) = (Memory.get m a).toNat + 256 * (Memory.get m (a + 1)).toNat := by
  simp [Memory.getBytes, valueLE]

/-- Four bytes assemble to their concatenation, the highest address in the high bits. -/
theorem word_getBytes_four (m : Memory) (a : Nat) :
    BitVec.ofNat 32 (valueLE (Memory.getBytes m a 4)) =
      Memory.get m (a + 3) ++ Memory.get m (a + 2) ++ Memory.get m (a + 1) ++ Memory.get m a := by
  have h0 := (Memory.get m a).isLt
  have h1 := (Memory.get m (a + 1)).isLt
  have h2 := (Memory.get m (a + 2)).isLt
  have h3 := (Memory.get m (a + 3)).isLt
  apply BitVec.eq_of_toNat_eq
  simp only [Memory.getBytes, valueLE, BitVec.toNat_ofNat, show a + 1 + 1 = a + 2 from rfl,
    show a + 2 + 1 = a + 3 from rfl]
  have e : ∀ {p q : Nat} (x : BitVec p) (y : BitVec q), (x ++ y).toNat = x.toNat * 2 ^ q + y.toNat := by
    intro p q x y
    rw [BitVec.toNat_append, Nat.shiftLeft_eq, Nat.mul_comm, ← Nat.two_pow_add_eq_or_of_lt y.isLt]
  have h : (Memory.get m (a + 3) ++ Memory.get m (a + 2) ++ Memory.get m (a + 1) ++ Memory.get m a : BitVec 32).toNat =
      (((Memory.get m (a + 3)).toNat * 2 ^ 8 + (Memory.get m (a + 2)).toNat) * 2 ^ 8 + (Memory.get m (a + 1)).toNat) * 2 ^ 8
        + (Memory.get m a).toNat := by
    refine (e _ _).trans ?_
    rw [e, e]
  rw [h]
  omega

/-- The little-endian bytes of a word as a list of its fields (R55). -/
theorem bytesLE_eq_ofFn (w : Width) (v : Word) :
    bytesLE w.bytes v.toNat = List.ofFn (n := w.bytes) (fun i => v.extractLsb' (8 * i.val) 8) := by
  apply List.ext_getElem
  · simp
  · intro i h1 h2
    rw [bytesLE_word_getElem]
    simp

theorem reset_mem_wf : Memory.wf State.reset.mem := by decide

end Machine
end Sys2Proof
end

