-- ==== Sys2Proof/Laws/Ops.lean ====
section
/-! SUPPORT. What each shared operation can do, said once: the access checks, the memory subsystem, the loads, the stores, the
branch, the fetch (20_memory.md rules R51 to R60, 43_loads.md R180, 44_stores.md R190, 45_branches.md R200). -/

namespace Sys2Proof.Machine

variable {s t : State}

/-! ## The access checks -/

theorem checkAccess_ok {addr : Word} {width : Width} (h : AccessOk s.cfg addr width.bytes) (access : AccessKind)
    (instr : Option Word) : s.checkAccess addr width access instr = .ok () := by
  obtain ⟨h1, h2⟩ := h
  unfold State.checkAccess
  rw [if_neg (fun h => h.2 (h1 h.1)), if_neg (by omega)]

theorem checkAccess_misaligned {addr : Word} {width : Width} (h : Misaligned s.cfg addr width.bytes)
    (access : AccessKind) (instr : Option Word) :
    s.checkAccess addr width access instr = .error (.unalignedAccess s.pc addr width access instr) := by
  unfold State.checkAccess
  exact if_pos ⟨h.1, h.2⟩

theorem checkAccess_pastEnd {addr : Word} {width : Width} (h : PastEnd s.cfg addr width.bytes)
    (access : AccessKind) (instr : Option Word) :
    s.checkAccess addr width access instr = .error (.outOfBounds s.pc addr width access instr) := by
  obtain ⟨h1, h2⟩ := h
  unfold State.checkAccess
  rw [if_neg (fun h => h.2 (h1 h.1)), if_pos h2]

/-- Every access is in exactly one of the three cases. -/
theorem access_cases (c : Config) (addr : Word) (n : Nat) :
    AccessOk c addr n ∨ Misaligned c addr n ∨ PastEnd c addr n := by
  unfold AccessOk Misaligned PastEnd
  by_cases h1 : c.strictAlign = true <;> by_cases h2 : addr.toNat % n = 0 <;>
    by_cases h3 : addr.toNat + n ≤ c.capacity <;> simp [h1, h2, h3, Nat.lt_of_not_le]

/-- A fault of an access tells its cause. -/
theorem checkAccess_error {addr : Word} {width : Width} {access : AccessKind} {instr : Option Word} {f : Fault}
    (h : s.checkAccess addr width access instr = .error f) :
    (Misaligned s.cfg addr width.bytes ∧ f = .unalignedAccess s.pc addr width access instr) ∨
      (PastEnd s.cfg addr width.bytes ∧ f = .outOfBounds s.pc addr width access instr) := by
  rcases access_cases s.cfg addr width.bytes with hc | hc | hc
  · rw [checkAccess_ok hc] at h; cases h
  · rw [checkAccess_misaligned hc] at h; cases h; exact .inl ⟨hc, rfl⟩
  · rw [checkAccess_pastEnd hc] at h; cases h; exact .inr ⟨hc, rfl⟩

theorem checkAccess_eq_ok {addr : Word} {width : Width} {access : AccessKind} {instr : Option Word} {u : Unit}
    (h : s.checkAccess addr width access instr = .ok u) : AccessOk s.cfg addr width.bytes := by
  rcases access_cases s.cfg addr width.bytes with hc | hc | hc
  · exact hc
  · rw [checkAccess_misaligned hc] at h; cases h
  · rw [checkAccess_pastEnd hc] at h; cases h

/-! ## The memory subsystem -/

/-- The word a read of `width` assembles at an address of a memory. -/
theorem memRead_ok {addr : Word} {width : Width} (h : AccessOk s.cfg addr width.bytes) (access : AccessKind)
    (instr : Option Word) :
    s.memRead addr width access instr =
      .ok (BitVec.ofNat 32 (valueLE (Memory.getBytes s.mem addr.toNat width.bytes))) := by
  unfold State.memRead
  rw [checkAccess_ok h]

theorem memRead_error {addr : Word} {width : Width} {access : AccessKind} {instr : Option Word} {f : Fault}
    (h : s.memRead addr width access instr = .error f) :
    (Misaligned s.cfg addr width.bytes ∧ f = .unalignedAccess s.pc addr width access instr) ∨
      (PastEnd s.cfg addr width.bytes ∧ f = .outOfBounds s.pc addr width access instr) := by
  unfold State.memRead at h
  split at h
  · next he => cases h; exact checkAccess_error he
  · cases h

theorem memRead_misaligned {addr : Word} {width : Width} (h : Misaligned s.cfg addr width.bytes)
    (access : AccessKind) (instr : Option Word) :
    s.memRead addr width access instr = .error (.unalignedAccess s.pc addr width access instr) := by
  unfold State.memRead
  rw [checkAccess_misaligned h]

theorem memRead_pastEnd {addr : Word} {width : Width} (h : PastEnd s.cfg addr width.bytes)
    (access : AccessKind) (instr : Option Word) :
    s.memRead addr width access instr = .error (.outOfBounds s.pc addr width access instr) := by
  unfold State.memRead
  rw [checkAccess_pastEnd h]

/-- A read of memory does not depend on the registers. -/
@[simp] theorem memRead_writeReg (s : State) (r : RegIdx) (v addr : Word) (width : Width) (access : AccessKind)
    (instr : Option Word) : (s.writeReg r v).memRead addr width access instr = s.memRead addr width access instr := by
  simp [State.memRead, State.checkAccess]

theorem memWrite_ok {addr : Word} {width : Width} (h : AccessOk s.cfg addr width.bytes) (v : Word)
    (instr : Option Word) :
    s.memWrite addr width v instr =
      .ok (s.setMem (Memory.setBytes s.mem addr.toNat (bytesLE width.bytes v.toNat))) := by
  unfold State.memWrite
  rw [checkAccess_ok h]

theorem memWrite_misaligned {addr : Word} {width : Width} (h : Misaligned s.cfg addr width.bytes) (v : Word)
    (instr : Option Word) :
    s.memWrite addr width v instr = .error (.unalignedAccess s.pc addr width .store instr) := by
  unfold State.memWrite
  rw [checkAccess_misaligned h]

theorem memWrite_pastEnd {addr : Word} {width : Width} (h : PastEnd s.cfg addr width.bytes) (v : Word)
    (instr : Option Word) :
    s.memWrite addr width v instr = .error (.outOfBounds s.pc addr width .store instr) := by
  unfold State.memWrite
  rw [checkAccess_pastEnd h]

/-- If a write answers a state, the access passed the checks and the state differs by the bytes written. -/
theorem memWrite_eq_ok {addr : Word} {width : Width} {v : Word} {instr : Option Word}
    (h : s.memWrite addr width v instr = .ok t) :
    AccessOk s.cfg addr width.bytes ∧
      t = s.setMem (Memory.setBytes s.mem addr.toNat (bytesLE width.bytes v.toNat)) := by
  unfold State.memWrite at h
  split at h
  · cases h
  · next hc => cases h; exact ⟨checkAccess_eq_ok hc, rfl⟩

/-- A state whose memory has had bytes written differs in those bytes alone. -/
theorem bytesStored_setBytes (s : State) (a : Nat) (bs : List Byte) :
    BytesStored s (s.setMem (Memory.setBytes s.mem a bs)) a bs where
  stored k h := get_setBytes_inside s.mem a bs k h
  others b h := get_setBytes_outside s.mem a bs b h
  regs _ := rfl
  pc := rfl
  pcNext := rfl
  status := rfl
  cfg := rfl

/-! ## The fetch -/

theorem fetch_ok (h : AccessOk s.cfg s.pc 4) :
    s.fetch = .ok (BitVec.ofNat 32 (valueLE (Memory.getBytes s.mem s.pc.toNat 4))) :=
  memRead_ok (width := .word) h .fetch none

theorem fetch_misaligned (h : Misaligned s.cfg s.pc 4) :
    s.fetch = .error (.unalignedAccess s.pc s.pc .word .fetch none) :=
  memRead_misaligned (width := .word) h .fetch none

theorem fetch_pastEnd (h : PastEnd s.cfg s.pc 4) :
    s.fetch = .error (.outOfBounds s.pc s.pc .word .fetch none) :=
  memRead_pastEnd (width := .word) h .fetch none

/-- The fetch depends on the pc, the memory and the parameters alone. -/
theorem fetch_congr (hp : t.pc = s.pc) (hm : t.mem = s.mem) (hc : t.cfg = s.cfg) : t.fetch = s.fetch := by
  unfold State.fetch State.memRead State.checkAccess
  rw [hp, hm, hc]

/-! ## The shared shapes of the meanings -/

/-- A load either writes `rd` with the extended value, or takes the fault of its access and changes only the status. -/
theorem loadInto_cases (s : State) (w : Word) (width : Width) (extend : Word → Word) (rd rs1 : RegIdx) (imm : Word) :
    (AccessOk s.cfg (s.effAddr rs1 imm) width.bytes ∧
      s.loadInto w width extend rd rs1 imm = s.writeReg rd
        (extend (BitVec.ofNat 32 (valueLE (Memory.getBytes s.mem (s.effAddr rs1 imm).toNat width.bytes))))) ∨
    (Misaligned s.cfg (s.effAddr rs1 imm) width.bytes ∧
      s.loadInto w width extend rd rs1 imm =
        s.takeFault (.unalignedAccess s.pc (s.effAddr rs1 imm) width .load (some w))) ∨
    (PastEnd s.cfg (s.effAddr rs1 imm) width.bytes ∧
      s.loadInto w width extend rd rs1 imm =
        s.takeFault (.outOfBounds s.pc (s.effAddr rs1 imm) width .load (some w))) := by
  unfold State.loadInto
  rcases access_cases s.cfg (s.effAddr rs1 imm) width.bytes with hc | hc | hc
  · exact .inl ⟨hc, by rw [memRead_ok hc]⟩
  · exact .inr (.inl ⟨hc, by rw [memRead_misaligned hc]⟩)
  · exact .inr (.inr ⟨hc, by rw [memRead_pastEnd hc]⟩)

/-- A store either writes the bytes of `x[rs2]`, or takes the fault of its access and changes only the status. -/
theorem storeFrom_cases (s : State) (w : Word) (width : Width) (rs1 rs2 : RegIdx) (imm : Word) :
    (AccessOk s.cfg (s.effAddr rs1 imm) width.bytes ∧
      s.storeFrom w width rs1 rs2 imm = s.setMem (Memory.setBytes s.mem (s.effAddr rs1 imm).toNat
        (bytesLE width.bytes (s.readReg rs2).toNat))) ∨
    (Misaligned s.cfg (s.effAddr rs1 imm) width.bytes ∧
      s.storeFrom w width rs1 rs2 imm =
        s.takeFault (.unalignedAccess s.pc (s.effAddr rs1 imm) width .store (some w))) ∨
    (PastEnd s.cfg (s.effAddr rs1 imm) width.bytes ∧
      s.storeFrom w width rs1 rs2 imm =
        s.takeFault (.outOfBounds s.pc (s.effAddr rs1 imm) width .store (some w))) := by
  unfold State.storeFrom
  rcases access_cases s.cfg (s.effAddr rs1 imm) width.bytes with hc | hc | hc
  · exact .inl ⟨hc, by rw [memWrite_ok hc]⟩
  · exact .inr (.inl ⟨hc, by rw [memWrite_misaligned hc]⟩)
  · exact .inr (.inr ⟨hc, by rw [memWrite_pastEnd hc]⟩)

/-- A branch overrides `pc_next` or leaves the state. -/
theorem branchIf_cases (s : State) (c : BranchCond) (rs1 rs2 : RegIdx) (offset : Word) :
    (c.holds (s.readReg rs1) (s.readReg rs2) = true ∧
      s.branchIf c rs1 rs2 offset = s.setPcNext (s.pc + offset)) ∨
    (c.holds (s.readReg rs1) (s.readReg rs2) = false ∧ s.branchIf c rs1 rs2 offset = s) := by
  unfold State.branchIf
  by_cases h : c.holds (s.readReg rs1) (s.readReg rs2) = true
  · exact .inl ⟨h, by rw [if_pos h]; rfl⟩
  · exact .inr ⟨by simpa using h, by rw [if_neg h]⟩

/-- A change of the run status changes nothing else. -/
theorem statusOnly_setStatus (s : State) (st : Status) : StatusOnly s (s.setStatus st) st where
  status := rfl
  regs _ := rfl
  pc := rfl
  pcNext := rfl
  mem _ := rfl
  cfg := rfl

theorem statusOnly_takeFault (s : State) (f : Fault) : StatusOnly s (s.takeFault f) (.faulted f) :=
  statusOnly_setStatus s _

end Sys2Proof.Machine
end

