-- ==== Sys2Proof/Laws/Engine.lean ====
section
/-! SUPPORT. What construction, one cycle and one step can do, said once (40_fetch_dispatch_cycle.md R120, 70_reset_and_hazards.md R271). -/

namespace Sys2Proof.Machine

/-! ## Construction -/

/-- What a register reads at the end of construction (R34). -/
theorem initial_readReg (c : Config) (m : Memory) (r : RegIdx) :
    (State.initial c m).readReg r =
      if r = 0 then 0#32 else if r = 1 then c.haltSentinel else if r = 2 then c.spInit else 0#32 := by
  by_cases h0 : r.val = 0
  · have hr : r = 0 := Fin.ext h0
    simp [hr]
  · have h0' : r ≠ 0 := fun h => h0 (by simp [h])
    have e1 : (r = 1) ↔ r.val = 1 := by rw [Fin.ext_iff]; rfl
    have e2 : (r = 2) ↔ r.val = 2 := by rw [Fin.ext_iff]; rfl
    simp only [State.readReg, State.initial, h0, h0', dif_neg, not_false_eq_true, if_false, Vector.getElem_set,
      Vector.getElem_replicate, e1, e2]
    split_ifs <;> first | rfl | omega

/-- If construction makes a machine, the image fits and the machine is the initial state over it (R272). -/
theorem construct_eq_ok {c : Config} {image : Option (List Byte)} {t : State} (h : construct c image = .ok t) :
    ∃ bytes, image = some bytes ∧ c.startOffset.toNat + bytes.length ≤ c.capacity ∧
      t = State.initial c (Memory.setBytes [] c.startOffset.toNat bytes) := by
  unfold construct at h
  split at h
  · cases h
  · next bytes =>
    split at h
    · cases h
    · cases h
      exact ⟨bytes, rfl, by omega, rfl⟩

/-! ## The cycle -/

theorem atSentinel_iff (s : State) : s.atSentinel = true ↔ s.pcNext >>> 1 = s.cfg.haltSentinel >>> 1 := by
  rw [State.atSentinel, decide_eq_true_iff, clear_bit0_eq_iff]

theorem step_running {s : State} (h : s.status = .running) : step s = s.cycle := by
  unfold step
  rw [h]

theorem step_terminal {s : State} (h : s.status ≠ .running) : step s = .next s := by
  unfold step
  split
  · next h' => exact absurd h' h
  · rfl
  · rfl

theorem cycle_sentinel {s : State} (h : s.pcNext >>> 1 = s.cfg.haltSentinel >>> 1) :
    s.cycle = .next (s.setStatus (.halted .sentinelReached)) := by
  unfold State.cycle
  rw [if_pos ((atSentinel_iff s).2 h)]

theorem cycle_fetches {s : State} (h : s.pcNext >>> 1 ≠ s.cfg.haltSentinel >>> 1) : s.cycle = s.fetchAndRun := by
  unfold State.cycle
  rw [if_neg (fun h' => h ((atSentinel_iff s).1 h'))]

theorem fetchAndRun_ok {s : State} {w : Word} (h : s.advance.fetch = .ok w) :
    s.fetchAndRun = s.advance.runWord w := by
  unfold State.fetchAndRun
  rw [h]

theorem fetchAndRun_error {s : State} {f : Fault} (h : s.advance.fetch = .error f) :
    s.fetchAndRun = .next (s.advance.takeFault f) := by
  unfold State.fetchAndRun
  rw [h]

theorem runWord_ok {s : State} {w : Word} {i : Instr} (h : decode w = .ok i) : s.runWord w = exec i s := by
  unfold State.runWord
  rw [h]

theorem runWord_error {s : State} {w : Word} {r : DecodeReject} (h : decode w = .error r) :
    s.runWord w = .next (s.takeIllegal w) := by
  unfold State.runWord
  rw [h]

/-- The next fetch of a state with a word placed reads that word, if the fetch passes its checks. -/
theorem withFetchWord_fetch {s : State} (h : AccessOk s.cfg s.pcNext 4) (nbits w : Nat) :
    (s.withFetchWord nbits w).advance.fetch = .ok (BitVec.ofNat 32 (w % 2 ^ nbits)) := by
  refine (fetch_ok (s := (s.withFetchWord nbits w).advance) h).trans ?_
  have hb : Memory.getBytes (Memory.setBytes s.mem s.pcNext.toNat (bytesLE 4 (w % 2 ^ nbits))) s.pcNext.toNat 4 =
      bytesLE 4 (w % 2 ^ nbits) := by
    simpa using getBytes_setBytes s.mem s.pcNext.toNat (bytesLE 4 (w % 2 ^ nbits))
  have he : Memory.getBytes (s.withFetchWord nbits w).advance.mem (s.withFetchWord nbits w).advance.pc.toNat 4 =
      bytesLE 4 (w % 2 ^ nbits) := hb
  rw [he, valueLE_bytesLE]
  congr 1
  apply BitVec.eq_of_toNat_eq
  simp

end Sys2Proof.Machine
end

