-- ==== Sys2Proof/Laws/Exec.lean ====
section
/-! SUPPORT. Everything an instruction can do, said once: `Effect` lists the shapes of the next state, `exec_effect` says that
every instruction has one of them. Frames and invariants are read off the shapes. -/

namespace Sys2Proof.Machine

/-- The condition and offset of a branch. -/
def branchOf : Instr → Option (BranchCond × RegIdx × RegIdx × Word)
  | .beq rs1 rs2 offset => some (.eq, rs1, rs2, offset)
  | .bne rs1 rs2 offset => some (.ne, rs1, rs2, offset)
  | .blt rs1 rs2 offset => some (.lt, rs1, rs2, offset)
  | .bge rs1 rs2 offset => some (.ge, rs1, rs2, offset)
  | .bltu rs1 rs2 offset => some (.ltu, rs1, rs2, offset)
  | .bgeu rs1 rs2 offset => some (.geu, rs1, rs2, offset)
  | _ => none

/-- The fault of the data access an instruction makes in a state (R241 to R243). -/
inductive DataFault (i : Instr) (s : State) : Fault → Prop where
  | misaligned (addr : Word) (width : Width) (access : AccessKind) :
      dataAccess i s = some (addr, width, access) → Misaligned s.cfg addr width.bytes →
      DataFault i s (.unalignedAccess s.pc addr width access (some (encode i)))
  | pastEnd (addr : Word) (width : Width) (access : AccessKind) :
      dataAccess i s = some (addr, width, access) → PastEnd s.cfg addr width.bytes →
      DataFault i s (.outOfBounds s.pc addr width access (some (encode i)))

/-- A fault taken leaves an instruction's data access as it was. -/
@[simp] theorem dataAccess_takeFault (i : Instr) (s : State) (f : Fault) : dataAccess i (s.takeFault f) = dataAccess i s := by
  cases i <;> rfl

/-- The shapes of the state an instruction leads to. -/
inductive Effect (i : Instr) (s : State) : State → Prop where
  /-- One register write. -/
  | write (rd : RegIdx) (v : Word) : destination i = some rd → Effect i s (s.writeReg rd v)
  /-- JAL. -/
  | jal (rd : RegIdx) (offset : Word) : i = .jal rd offset →
      Effect i s ((s.writeReg rd s.linkValue).setPcNext (s.pc + offset))
  /-- JALR. -/
  | jalr (rd rs1 : RegIdx) (imm : Word) : i = .jalr rd rs1 imm →
      Effect i s ((s.writeReg rd s.linkValue).setPcNext (s.jalrTarget rs1 imm))
  /-- A taken branch. -/
  | taken (c : BranchCond) (rs1 rs2 : RegIdx) (offset : Word) : branchOf i = some (c, rs1, rs2, offset) →
      c.holds (s.readReg rs1) (s.readReg rs2) = true → Effect i s (s.setPcNext (s.pc + offset))
  /-- A branch that is not taken. -/
  | notTaken (c : BranchCond) (rs1 rs2 : RegIdx) (offset : Word) : branchOf i = some (c, rs1, rs2, offset) →
      c.holds (s.readReg rs1) (s.readReg rs2) = false → Effect i s s
  /-- A store whose access passes the checks. -/
  | stored (addr : Word) (width : Width) (v : Word) : AccessOk s.cfg addr width.bytes →
      storedRange i s = some (addr.toNat, width.bytes) →
      Effect i s (s.setMem (Memory.setBytes s.mem addr.toNat (bytesLE width.bytes v.toNat)))
  /-- A load or store whose access fails a check. -/
  | dataFault (f : Fault) : DataFault i s f → Effect i s (s.takeFault f)
  /-- An instruction without a handler. -/
  | illegal : i.hasHandler = false → Effect i s (s.takeIllegal (encode i))
  /-- The halt word. -/
  | halt : i = .halt → Effect i s (s.setStatus (.halted .zeroWord))

theorem effect_load {i : Instr} {s : State} {width : Width} {extend : Word → Word} {rd rs1 : RegIdx} {imm : Word}
    (hd : destination i = some rd) (ha : dataAccess i s = some (s.effAddr rs1 imm, width, .load)) :
    Effect i s (s.loadInto (encode i) width extend rd rs1 imm) := by
  rcases loadInto_cases s (encode i) width extend rd rs1 imm with ⟨_, h⟩ | ⟨h1, h⟩ | ⟨h1, h⟩ <;> rw [h]
  · exact .write _ _ hd
  · exact .dataFault _ (.misaligned _ _ _ ha h1)
  · exact .dataFault _ (.pastEnd _ _ _ ha h1)

theorem effect_store {i : Instr} {s : State} {width : Width} {rs1 rs2 : RegIdx} {imm : Word}
    (hr : storedRange i s = some ((s.effAddr rs1 imm).toNat, width.bytes))
    (ha : dataAccess i s = some (s.effAddr rs1 imm, width, .store)) :
    Effect i s (s.storeFrom (encode i) width rs1 rs2 imm) := by
  rcases storeFrom_cases s (encode i) width rs1 rs2 imm with ⟨h1, h⟩ | ⟨h1, h⟩ | ⟨h1, h⟩ <;> rw [h]
  · exact .stored _ _ _ h1 hr
  · exact .dataFault _ (.misaligned _ _ _ ha h1)
  · exact .dataFault _ (.pastEnd _ _ _ ha h1)

theorem effect_branch {i : Instr} {s : State} {c : BranchCond} {rs1 rs2 : RegIdx} {offset : Word}
    (h : branchOf i = some (c, rs1, rs2, offset)) : Effect i s (s.branchIf c rs1 rs2 offset) := by
  rcases branchIf_cases s c rs1 rs2 offset with ⟨h1, h2⟩ | ⟨h1, h2⟩ <;> rw [h2]
  · exact .taken c rs1 rs2 offset h h1
  · exact .notTaken c rs1 rs2 offset h h1

/-- Every instruction answers a next state of one of the shapes. -/
theorem exec_effect (i : Instr) (s : State) : ∃ t, exec i s = .next t ∧ Effect i s t := by
  cases i with
  | lui rd imm => exact ⟨_, rfl, .write rd _ rfl⟩
  | auipc rd imm => exact ⟨_, rfl, .write rd _ rfl⟩
  | jal rd offset => exact ⟨_, rfl, .jal rd offset rfl⟩
  | jalr rd rs1 imm => exact ⟨_, rfl, .jalr rd rs1 imm rfl⟩
  | beq rs1 rs2 offset => exact ⟨_, rfl, effect_branch rfl⟩
  | bne rs1 rs2 offset => exact ⟨_, rfl, effect_branch rfl⟩
  | blt rs1 rs2 offset => exact ⟨_, rfl, effect_branch rfl⟩
  | bge rs1 rs2 offset => exact ⟨_, rfl, effect_branch rfl⟩
  | bltu rs1 rs2 offset => exact ⟨_, rfl, effect_branch rfl⟩
  | bgeu rs1 rs2 offset => exact ⟨_, rfl, effect_branch rfl⟩
  | lb rd rs1 imm => exact ⟨_, rfl, effect_load rfl rfl⟩
  | lh rd rs1 imm => exact ⟨_, rfl, effect_load rfl rfl⟩
  | lw rd rs1 imm => exact ⟨_, rfl, effect_load rfl rfl⟩
  | lbu rd rs1 imm => exact ⟨_, rfl, effect_load rfl rfl⟩
  | lhu rd rs1 imm => exact ⟨_, rfl, effect_load rfl rfl⟩
  | sb rs1 rs2 imm => exact ⟨_, rfl, effect_store rfl rfl⟩
  | sh rs1 rs2 imm => exact ⟨_, rfl, effect_store rfl rfl⟩
  | sw rs1 rs2 imm => exact ⟨_, rfl, effect_store rfl rfl⟩
  | addi rd rs1 imm => exact ⟨_, rfl, .write rd _ rfl⟩
  | slti rd rs1 imm => exact ⟨_, rfl, .write rd _ rfl⟩
  | sltiu rd rs1 imm => exact ⟨_, rfl, .write rd _ rfl⟩
  | xori rd rs1 imm => exact ⟨_, rfl, .write rd _ rfl⟩
  | ori rd rs1 imm => exact ⟨_, rfl, .write rd _ rfl⟩
  | andi rd rs1 imm => exact ⟨_, rfl, .write rd _ rfl⟩
  | slli rd rs1 shamt => exact ⟨_, rfl, .write rd _ rfl⟩
  | srli rd rs1 shamt => exact ⟨_, rfl, .write rd _ rfl⟩
  | srai rd rs1 shamt => exact ⟨_, rfl, .write rd _ rfl⟩
  | add rd rs1 rs2 => exact ⟨_, rfl, .write rd _ rfl⟩
  | sub rd rs1 rs2 => exact ⟨_, rfl, .write rd _ rfl⟩
  | sll rd rs1 rs2 => exact ⟨_, rfl, .write rd _ rfl⟩
  | slt rd rs1 rs2 => exact ⟨_, rfl, .write rd _ rfl⟩
  | sltu rd rs1 rs2 => exact ⟨_, rfl, .write rd _ rfl⟩
  | xor rd rs1 rs2 => exact ⟨_, rfl, .write rd _ rfl⟩
  | srl rd rs1 rs2 => exact ⟨_, rfl, .write rd _ rfl⟩
  | sra rd rs1 rs2 => exact ⟨_, rfl, .write rd _ rfl⟩
  | or rd rs1 rs2 => exact ⟨_, rfl, .write rd _ rfl⟩
  | and rd rs1 rs2 => exact ⟨_, rfl, .write rd _ rfl⟩
  | halt => exact ⟨_, rfl, .halt rfl⟩
  | fence hi lo => exact ⟨_, rfl, .illegal rfl⟩
  | fenceI hi lo => exact ⟨_, rfl, .illegal rfl⟩
  | ecall => exact ⟨_, rfl, .illegal rfl⟩
  | ebreak => exact ⟨_, rfl, .illegal rfl⟩

/-- If an instruction answers a next state, that state has one of the shapes. -/
theorem effect_of_exec {i : Instr} {s t : State} (h : exec i s = .next t) : Effect i s t := by
  obtain ⟨u, hu, he⟩ := exec_effect i s
  rw [h] at hu
  cases hu
  exact he

/-- No instruction changes a construction parameter (R6). -/
theorem exec_cfg {i : Instr} {s t : State} (h : exec i s = .next t) : t.cfg = s.cfg := by
  cases effect_of_exec h <;> first | rfl | simp

/-- No instruction changes `pc` (R124). -/
theorem exec_pc {i : Instr} {s t : State} (h : exec i s = .next t) : t.pc = s.pc := by
  cases effect_of_exec h <;> first | rfl | simp

/-- An instruction leaves the run status, stops on the zero word, or takes a fault. -/
theorem exec_status {i : Instr} {s t : State} (h : exec i s = .next t) :
    t.status = s.status ∨ t.status = .halted .zeroWord ∨ ∃ f, t.status = .faulted f := by
  cases effect_of_exec h <;> simp [State.takeFault, State.takeIllegal]

/-- An instruction keeps memory in canonical form. -/
theorem exec_mem_wf {i : Instr} {s t : State} (h : exec i s = .next t) (hm : Memory.wf s.mem) : Memory.wf t.mem := by
  cases effect_of_exec h with
  | write => rw [writeReg_mem]; exact hm
  | jal => rw [setPcNext_mem, writeReg_mem]; exact hm
  | jalr => rw [setPcNext_mem, writeReg_mem]; exact hm
  | stored => exact setBytes_wf hm _ _
  | _ => exact hm

/-- Everything one step can do (R120, R29). -/
theorem step_cases {s t : State} (h : step s = .next t) :
    (s.status ≠ .running ∧ t = s) ∨
    (s.status = .running ∧ s.pcNext >>> 1 = s.cfg.haltSentinel >>> 1 ∧ t = s.setStatus (.halted .sentinelReached)) ∨
    (s.status = .running ∧ s.pcNext >>> 1 ≠ s.cfg.haltSentinel >>> 1 ∧
      ((∃ f, s.advance.fetch = .error f ∧ t = s.advance.takeFault f) ∨
        (∃ w r, s.advance.fetch = .ok w ∧ decode w = .error r ∧ t = s.advance.takeIllegal w) ∨
        (∃ w i, s.advance.fetch = .ok w ∧ decode w = .ok i ∧ exec i s.advance = .next t))) := by
  by_cases hr : s.status = .running
  · rw [step_running hr] at h
    by_cases hs : s.pcNext >>> 1 = s.cfg.haltSentinel >>> 1
    · rw [cycle_sentinel hs] at h
      cases h
      exact .inr (.inl ⟨hr, hs, rfl⟩)
    · rw [cycle_fetches hs] at h
      refine .inr (.inr ⟨hr, hs, ?_⟩)
      cases hf : s.advance.fetch with
      | error f =>
        rw [fetchAndRun_error hf] at h
        cases h
        exact .inl ⟨f, rfl, rfl⟩
      | ok w =>
        rw [fetchAndRun_ok hf] at h
        cases hd : decode w with
        | error r =>
          rw [runWord_error hd] at h
          cases h
          exact .inr (.inl ⟨w, r, rfl, hd, rfl⟩)
        | ok i =>
          rw [runWord_ok hd] at h
          exact .inr (.inr ⟨w, i, rfl, hd, h⟩)
  · rw [step_terminal hr] at h
    cases h
    exact .inl ⟨hr, rfl⟩

/-- A fault of the fetch tells its cause (R60). -/
theorem fetch_error {s : State} {f : Fault} (h : s.fetch = .error f) :
    (Misaligned s.cfg s.pc 4 ∧ f = .unalignedAccess s.pc s.pc .word .fetch none) ∨
      (PastEnd s.cfg s.pc 4 ∧ f = .outOfBounds s.pc s.pc .word .fetch none) :=
  memRead_error h

end Sys2Proof.Machine
end

