-- ==== Sys2Proof/Laws/PerInstr.lean ====
section
/-! SUPPORT. Per-instruction lemmas: the word of every instruction is a word of the opcode-table row that carries its mnemonic
(spec/opcode_table.json; 30_encoding.md rules R83, R94 to R98). -/

namespace Sys2Proof.Laws.InRow

/-- The instruction's word selects the row of its own mnemonic. -/
def Statement (i : Instr) : Prop :=
  ∃ r ∈ opcodeTable, r.mnemonic = i.mnemonic ∧ encode i &&& r.mask = r.value

/-- A row that compares the opcode alone (R99). -/
theorem of_opcode {i : Instr} {m : String} {v : Word} (hr : ⟨m, 0x7F#32, v⟩ ∈ opcodeTable) (hm : m = i.mnemonic)
    (hv : v &&& 0x7F#32 = v) (h0 : fieldOpcode (encode i) = fieldOpcode v) : Statement i :=
  ⟨_, hr, hm, (mask_opcode hv).2 h0⟩

/-- A row that compares opcode and funct3 (R94). -/
theorem of_funct3 {i : Instr} {m : String} {v : Word} (hr : ⟨m, 0x707F#32, v⟩ ∈ opcodeTable) (hm : m = i.mnemonic)
    (hv : v &&& 0x707F#32 = v) (h0 : fieldOpcode (encode i) = fieldOpcode v)
    (h3 : fieldFunct3 (encode i) = fieldFunct3 v) : Statement i :=
  ⟨_, hr, hm, (mask_funct3 hv).2 ⟨h0, h3⟩⟩

/-- A row that compares opcode, funct3 and funct7 (R95). -/
theorem of_funct7 {i : Instr} {m : String} {v : Word} (hr : ⟨m, 0xFE00707F#32, v⟩ ∈ opcodeTable) (hm : m = i.mnemonic)
    (hv : v &&& 0xFE00707F#32 = v) (h0 : fieldOpcode (encode i) = fieldOpcode v)
    (h3 : fieldFunct3 (encode i) = fieldFunct3 v) (h7 : fieldFunct7 (encode i) = fieldFunct7 v) : Statement i :=
  ⟨_, hr, hm, (mask_funct7 hv).2 ⟨h0, h3, h7⟩⟩

/-- A row that is one word. -/
theorem of_word {i : Instr} {m : String} {v : Word} (hr : ⟨m, 0xFFFFFFFF#32, v⟩ ∈ opcodeTable) (hm : m = i.mnemonic)
    (h : encode i = v) : Statement i :=
  ⟨_, hr, hm, by rw [h]; exact BitVec.and_allOnes⟩

theorem lui (rd : RegIdx) (imm : Word) : Statement (.lui rd imm) :=
  of_opcode (m := "LUI") (v := 0x00000037#32) (by decide) rfl rfl (encodeU_opcode ..)
theorem auipc (rd : RegIdx) (imm : Word) : Statement (.auipc rd imm) :=
  of_opcode (m := "AUIPC") (v := 0x00000017#32) (by decide) rfl rfl (encodeU_opcode ..)
theorem jal (rd : RegIdx) (offset : Word) : Statement (.jal rd offset) :=
  of_opcode (m := "JAL") (v := 0x0000006F#32) (by decide) rfl rfl (encodeJ_opcode ..)
theorem jalr (rd rs1 : RegIdx) (imm : Word) : Statement (.jalr rd rs1 imm) :=
  of_funct3 (m := "JALR") (v := 0x00000067#32) (by decide) rfl rfl (encodeI_opcode ..) (encodeI_funct3 ..)
theorem beq (rs1 rs2 : RegIdx) (offset : Word) : Statement (.beq rs1 rs2 offset) :=
  of_funct3 (m := "BEQ") (v := 0x00000063#32) (by decide) rfl rfl (encodeB_opcode ..) (encodeB_funct3 ..)
theorem bne (rs1 rs2 : RegIdx) (offset : Word) : Statement (.bne rs1 rs2 offset) :=
  of_funct3 (m := "BNE") (v := 0x00001063#32) (by decide) rfl rfl (encodeB_opcode ..) (encodeB_funct3 ..)
theorem blt (rs1 rs2 : RegIdx) (offset : Word) : Statement (.blt rs1 rs2 offset) :=
  of_funct3 (m := "BLT") (v := 0x00004063#32) (by decide) rfl rfl (encodeB_opcode ..) (encodeB_funct3 ..)
theorem bge (rs1 rs2 : RegIdx) (offset : Word) : Statement (.bge rs1 rs2 offset) :=
  of_funct3 (m := "BGE") (v := 0x00005063#32) (by decide) rfl rfl (encodeB_opcode ..) (encodeB_funct3 ..)
theorem bltu (rs1 rs2 : RegIdx) (offset : Word) : Statement (.bltu rs1 rs2 offset) :=
  of_funct3 (m := "BLTU") (v := 0x00006063#32) (by decide) rfl rfl (encodeB_opcode ..) (encodeB_funct3 ..)
theorem bgeu (rs1 rs2 : RegIdx) (offset : Word) : Statement (.bgeu rs1 rs2 offset) :=
  of_funct3 (m := "BGEU") (v := 0x00007063#32) (by decide) rfl rfl (encodeB_opcode ..) (encodeB_funct3 ..)
theorem lb (rd rs1 : RegIdx) (imm : Word) : Statement (.lb rd rs1 imm) :=
  of_funct3 (m := "LB") (v := 0x00000003#32) (by decide) rfl rfl (encodeI_opcode ..) (encodeI_funct3 ..)
theorem lh (rd rs1 : RegIdx) (imm : Word) : Statement (.lh rd rs1 imm) :=
  of_funct3 (m := "LH") (v := 0x00001003#32) (by decide) rfl rfl (encodeI_opcode ..) (encodeI_funct3 ..)
theorem lw (rd rs1 : RegIdx) (imm : Word) : Statement (.lw rd rs1 imm) :=
  of_funct3 (m := "LW") (v := 0x00002003#32) (by decide) rfl rfl (encodeI_opcode ..) (encodeI_funct3 ..)
theorem lbu (rd rs1 : RegIdx) (imm : Word) : Statement (.lbu rd rs1 imm) :=
  of_funct3 (m := "LBU") (v := 0x00004003#32) (by decide) rfl rfl (encodeI_opcode ..) (encodeI_funct3 ..)
theorem lhu (rd rs1 : RegIdx) (imm : Word) : Statement (.lhu rd rs1 imm) :=
  of_funct3 (m := "LHU") (v := 0x00005003#32) (by decide) rfl rfl (encodeI_opcode ..) (encodeI_funct3 ..)
theorem sb (rs1 rs2 : RegIdx) (imm : Word) : Statement (.sb rs1 rs2 imm) :=
  of_funct3 (m := "SB") (v := 0x00000023#32) (by decide) rfl rfl (encodeS_opcode ..) (encodeS_funct3 ..)
theorem sh (rs1 rs2 : RegIdx) (imm : Word) : Statement (.sh rs1 rs2 imm) :=
  of_funct3 (m := "SH") (v := 0x00001023#32) (by decide) rfl rfl (encodeS_opcode ..) (encodeS_funct3 ..)
theorem sw (rs1 rs2 : RegIdx) (imm : Word) : Statement (.sw rs1 rs2 imm) :=
  of_funct3 (m := "SW") (v := 0x00002023#32) (by decide) rfl rfl (encodeS_opcode ..) (encodeS_funct3 ..)
theorem addi (rd rs1 : RegIdx) (imm : Word) : Statement (.addi rd rs1 imm) :=
  of_funct3 (m := "ADDI") (v := 0x00000013#32) (by decide) rfl rfl (encodeI_opcode ..) (encodeI_funct3 ..)
theorem slti (rd rs1 : RegIdx) (imm : Word) : Statement (.slti rd rs1 imm) :=
  of_funct3 (m := "SLTI") (v := 0x00002013#32) (by decide) rfl rfl (encodeI_opcode ..) (encodeI_funct3 ..)
theorem sltiu (rd rs1 : RegIdx) (imm : Word) : Statement (.sltiu rd rs1 imm) :=
  of_funct3 (m := "SLTIU") (v := 0x00003013#32) (by decide) rfl rfl (encodeI_opcode ..) (encodeI_funct3 ..)
theorem xori (rd rs1 : RegIdx) (imm : Word) : Statement (.xori rd rs1 imm) :=
  of_funct3 (m := "XORI") (v := 0x00004013#32) (by decide) rfl rfl (encodeI_opcode ..) (encodeI_funct3 ..)
theorem ori (rd rs1 : RegIdx) (imm : Word) : Statement (.ori rd rs1 imm) :=
  of_funct3 (m := "ORI") (v := 0x00006013#32) (by decide) rfl rfl (encodeI_opcode ..) (encodeI_funct3 ..)
theorem andi (rd rs1 : RegIdx) (imm : Word) : Statement (.andi rd rs1 imm) :=
  of_funct3 (m := "ANDI") (v := 0x00007013#32) (by decide) rfl rfl (encodeI_opcode ..) (encodeI_funct3 ..)
theorem slli (rd rs1 : RegIdx) (shamt : BitVec 5) : Statement (.slli rd rs1 shamt) :=
  of_funct3 (m := "SLLI") (v := 0x00001013#32) (by decide) rfl rfl (encodeShift_opcode ..) (encodeShift_funct3 ..)
theorem srli (rd rs1 : RegIdx) (shamt : BitVec 5) : Statement (.srli rd rs1 shamt) :=
  of_funct7 (m := "SRLI") (v := 0x00005013#32) (by decide) rfl rfl (encodeShift_opcode ..) (encodeShift_funct3 ..) (encodeShift_funct7 ..)
theorem srai (rd rs1 : RegIdx) (shamt : BitVec 5) : Statement (.srai rd rs1 shamt) :=
  of_funct7 (m := "SRAI") (v := 0x40005013#32) (by decide) rfl rfl (encodeShift_opcode ..) (encodeShift_funct3 ..) (encodeShift_funct7 ..)
theorem add (rd rs1 rs2 : RegIdx) : Statement (.add rd rs1 rs2) :=
  of_funct7 (m := "ADD") (v := 0x00000033#32) (by decide) rfl rfl (encodeR_opcode ..) (encodeR_funct3 ..) (encodeR_funct7 ..)
theorem sub (rd rs1 rs2 : RegIdx) : Statement (.sub rd rs1 rs2) :=
  of_funct7 (m := "SUB") (v := 0x40000033#32) (by decide) rfl rfl (encodeR_opcode ..) (encodeR_funct3 ..) (encodeR_funct7 ..)
theorem sll (rd rs1 rs2 : RegIdx) : Statement (.sll rd rs1 rs2) :=
  of_funct3 (m := "SLL") (v := 0x00001033#32) (by decide) rfl rfl (encodeR_opcode ..) (encodeR_funct3 ..)
theorem slt (rd rs1 rs2 : RegIdx) : Statement (.slt rd rs1 rs2) :=
  of_funct3 (m := "SLT") (v := 0x00002033#32) (by decide) rfl rfl (encodeR_opcode ..) (encodeR_funct3 ..)
theorem sltu (rd rs1 rs2 : RegIdx) : Statement (.sltu rd rs1 rs2) :=
  of_funct3 (m := "SLTU") (v := 0x00003033#32) (by decide) rfl rfl (encodeR_opcode ..) (encodeR_funct3 ..)
theorem xor (rd rs1 rs2 : RegIdx) : Statement (.xor rd rs1 rs2) :=
  of_funct3 (m := "XOR") (v := 0x00004033#32) (by decide) rfl rfl (encodeR_opcode ..) (encodeR_funct3 ..)
theorem srl (rd rs1 rs2 : RegIdx) : Statement (.srl rd rs1 rs2) :=
  of_funct7 (m := "SRL") (v := 0x00005033#32) (by decide) rfl rfl (encodeR_opcode ..) (encodeR_funct3 ..) (encodeR_funct7 ..)
theorem sra (rd rs1 rs2 : RegIdx) : Statement (.sra rd rs1 rs2) :=
  of_funct7 (m := "SRA") (v := 0x40005033#32) (by decide) rfl rfl (encodeR_opcode ..) (encodeR_funct3 ..) (encodeR_funct7 ..)
theorem or (rd rs1 rs2 : RegIdx) : Statement (.or rd rs1 rs2) :=
  of_funct3 (m := "OR") (v := 0x00006033#32) (by decide) rfl rfl (encodeR_opcode ..) (encodeR_funct3 ..)
theorem and (rd rs1 rs2 : RegIdx) : Statement (.and rd rs1 rs2) :=
  of_funct3 (m := "AND") (v := 0x00007033#32) (by decide) rfl rfl (encodeR_opcode ..) (encodeR_funct3 ..)
theorem halt : Statement .halt :=
  of_word (m := "HALT") (v := 0x00000000#32) (by decide) rfl rfl
theorem fence (hi : BitVec 17) (lo : BitVec 5) : Statement (.fence hi lo) :=
  of_funct3 (m := "FENCE") (v := 0x0000000F#32) (by decide) rfl rfl (encodeOpen_opcode ..) (encodeOpen_funct3 ..)
theorem fenceI (hi : BitVec 17) (lo : BitVec 5) : Statement (.fenceI hi lo) :=
  of_funct3 (m := "FENCE.I") (v := 0x0000100F#32) (by decide) rfl rfl (encodeOpen_opcode ..) (encodeOpen_funct3 ..)
theorem ecall : Statement .ecall :=
  of_word (m := "ECALL") (v := 0x00000073#32) (by decide) rfl rfl
theorem ebreak : Statement .ebreak :=
  of_word (m := "EBREAK") (v := 0x00100073#32) (by decide) rfl rfl

end Sys2Proof.Laws.InRow
end

