-- ==== Sys2Proof/Tests/Slice0.lean ====
section
/-! SUPPORT. The model's own tests. Expected values are those of the spec's examples (the rule files and 95_test_vectors.md) or
worked out by hand from its encoding tables; each section says which. -/

namespace Sys2Proof.Tests

open Sys2Proof Sys2Proof.Machine

/-! ## Helpers -/

/-- The next state of an outcome. -/
def nextState : Host.Outcome State Fault Refusal → Option State
  | .next t => some t
  | .fault _ => none
  | .refused _ => none

/-- Reset with two registers set, the operands of the spec's examples. -/
def withX6X7 (v6 v7 : Word) : State := (State.reset.writeReg 6 v6).writeReg 7 v7

/-- One step of a state on a word placed where it fetches next. -/
def runOne (s : State) (w : Nat) : Option State := nextState (step (s.withFetchWord 32 w))

/-- One step on a word at a chosen address. -/
def runAt (s : State) (pc : Word) (w : Nat) : Option State := runOne (s.setPcNext pc) w

/-- `x5` after one step on a word, from the given `x6` and `x7`. -/
def x5After (w : Nat) (v6 v7 : Word) : Option Word := (runOne (withX6X7 v6 v7) w).map (fun t => t.readReg 5)

/-- `pc_next` after a branch at `0x100`, from the given `x6` and `x7`. -/
def branchAt100 (w : Nat) (v6 v7 : Word) : Option Word := (runAt (withX6X7 v6 v7) 0x100#32 w).map State.pcNext

/-- A state without strict alignment. -/
def loose (s : State) : State := { s with cfg := { s.cfg with strictAlign := false } }

/-- Reset with the bytes EF CD AB 89 at 0x200. -/
def withData : State := State.reset.setMem (Memory.setBytes [] 0x200 [0xEF#8, 0xCD#8, 0xAB#8, 0x89#8])

/-! ## WellFormed refuses what no encoding holds (30_encoding.md R86 to R90) -/

theorem test_wf_refuses_imm_i_above : WellFormed (.addi 1 2 2048#32) = false := by decide
theorem test_wf_refuses_imm_i_below : WellFormed (.lw 1 2 0xFFFFF7FF#32) = false := by decide
theorem test_wf_refuses_imm_s_above : WellFormed (.sw 1 2 2048#32) = false := by decide
theorem test_wf_refuses_imm_b_odd : WellFormed (.beq 1 2 5#32) = false := by decide
theorem test_wf_refuses_imm_b_above : WellFormed (.beq 1 2 4096#32) = false := by decide
theorem test_wf_refuses_imm_j_odd : WellFormed (.jal 1 3#32) = false := by decide
theorem test_wf_refuses_imm_j_above : WellFormed (.jal 1 0x00100000#32) = false := by decide
theorem test_wf_refuses_imm_u_low_bits : WellFormed (.lui 1 0x00001001#32) = false := by decide
theorem test_wf_takes_the_ends :
    WellFormed (.addi 1 2 2047#32) = true ∧ WellFormed (.addi 1 2 0xFFFFF800#32) = true ∧
    WellFormed (.beq 1 2 4094#32) = true ∧ WellFormed (.beq 1 2 0xFFFFF000#32) = true ∧
    WellFormed (.jal 1 1048574#32) = true ∧ WellFormed (.jal 1 0xFFF00000#32) = true ∧
    WellFormed (.lui 1 0xFFFFF000#32) = true := by decide

/-! ## Decoding: every constructor, by words written out from the encoding tables of R82, R83, R94, R95 -/

theorem test_decode_upper_and_jumps :
    decode 0b10001001101010111101_00101_0110111#32 = .ok (.lui 5 0x89ABD000#32) ∧
    decode 0b00000000000000000001_00101_0010111#32 = .ok (.auipc 5 0x1000#32) ∧
    decode 0b1_1111111110_1_11111111_00000_1101111#32 = .ok (.jal 0 0xFFFFFFFC#32) ∧
    decode 0b111111111111_00101_000_00001_1100111#32 = .ok (.jalr 1 5 0xFFFFFFFF#32) := by decide
theorem test_decode_branches :
    decode 0b0_000000_00111_00110_000_0100_0_1100011#32 = .ok (.beq 6 7 8#32) ∧
    decode 0b1_111111_00111_00110_001_1100_1_1100011#32 = .ok (.bne 6 7 0xFFFFFFF8#32) ∧
    decode 0b0_000000_00111_00110_100_1000_0_1100011#32 = .ok (.blt 6 7 16#32) ∧
    decode 0b0_000000_00111_00110_101_1000_0_1100011#32 = .ok (.bge 6 7 16#32) ∧
    decode 0b0_000000_00111_00110_110_1000_0_1100011#32 = .ok (.bltu 6 7 16#32) ∧
    decode 0b0_000000_00111_00110_111_1000_0_1100011#32 = .ok (.bgeu 6 7 16#32) := by decide
theorem test_decode_loads :
    decode 0b000000000000_00110_000_00101_0000011#32 = .ok (.lb 5 6 0#32) ∧
    decode 0b000000000010_00110_001_00101_0000011#32 = .ok (.lh 5 6 2#32) ∧
    decode 0b111111111100_00110_010_00101_0000011#32 = .ok (.lw 5 6 0xFFFFFFFC#32) ∧
    decode 0b000000000011_00110_100_00101_0000011#32 = .ok (.lbu 5 6 3#32) ∧
    decode 0b000000000000_00110_101_00101_0000011#32 = .ok (.lhu 5 6 0#32) := by decide
theorem test_decode_stores :
    decode 0b1000000_00111_00110_000_00000_0100011#32 = .ok (.sb 6 7 0xFFFFF800#32) ∧
    decode 0b0000000_00111_00110_001_11111_0100011#32 = .ok (.sh 6 7 31#32) ∧
    decode 0b1111111_00111_00110_010_11100_0100011#32 = .ok (.sw 6 7 0xFFFFFFFC#32) := by decide
theorem test_decode_op_imm :
    decode 0b111111111111_00110_000_00101_0010011#32 = .ok (.addi 5 6 0xFFFFFFFF#32) ∧
    decode 0b111111111111_00110_010_00101_0010011#32 = .ok (.slti 5 6 0xFFFFFFFF#32) ∧
    decode 0b000000000001_00110_011_00101_0010011#32 = .ok (.sltiu 5 6 1#32) ∧
    decode 0b111111111111_00110_100_00101_0010011#32 = .ok (.xori 5 6 0xFFFFFFFF#32) ∧
    decode 0b000011110000_00110_110_00101_0010011#32 = .ok (.ori 5 6 0xF0#32) ∧
    decode 0b000011111111_00110_111_00101_0010011#32 = .ok (.andi 5 6 0xFF#32) ∧
    decode 0b0000001_00001_00110_001_00001_0010011#32 = .ok (.slli 1 6 1#5) ∧
    decode 0b0000000_00100_00110_101_00101_0010011#32 = .ok (.srli 5 6 4#5) ∧
    decode 0b0100000_11111_00110_101_00101_0010011#32 = .ok (.srai 5 6 31#5) := by decide
theorem test_decode_op :
    decode 0b0000000_00111_00110_000_00101_0110011#32 = .ok (.add 5 6 7) ∧
    decode 0b0100000_00111_00110_000_00101_0110011#32 = .ok (.sub 5 6 7) ∧
    decode 0b0000001_00111_00110_001_00101_0110011#32 = .ok (.sll 5 6 7) ∧
    decode 0b0000000_00111_00110_010_00101_0110011#32 = .ok (.slt 5 6 7) ∧
    decode 0b0000000_00111_00110_011_00101_0110011#32 = .ok (.sltu 5 6 7) ∧
    decode 0b0000001_00111_00110_100_00101_0110011#32 = .ok (.xor 5 6 7) ∧
    decode 0b0000000_00111_00110_101_00101_0110011#32 = .ok (.srl 5 6 7) ∧
    decode 0b0100000_00111_00110_101_00101_0110011#32 = .ok (.sra 5 6 7) ∧
    decode 0b0000000_00111_00110_110_00101_0110011#32 = .ok (.or 5 6 7) ∧
    decode 0b1111111_00111_00110_111_00101_0110011#32 = .ok (.and 5 6 7) := by decide
theorem test_decode_halt_and_unimplemented :
    decode 0x00000000#32 = .ok .halt ∧ decode 0x0FF0000F#32 = .ok (.fence 0x01FE0#17 0#5) ∧
    decode 0x0000100F#32 = .ok (.fenceI 0#17 0#5) ∧ decode 0x00000073#32 = .ok .ecall ∧
    decode 0x00100073#32 = .ok .ebreak := by decide

/-- Words of 95_test_vectors.md V2 that have no handler, one per kind of rejection. -/
theorem test_decode_rejects :
    decode 0x02A5D513#32 = .error (.noHandlerForFunct7 .opImm 5#3 1#7) ∧
    decode 0x027302B3#32 = .error (.noHandlerForFunct7 .op 0#3 1#7) ∧
    decode 0xC07302B3#32 = .error (.noHandlerForFunct7 .op 0#3 0x60#7) ∧
    decode 0x00009067#32 = .error (.noHandlerForFunct3 .jalr 1#3) ∧
    decode 0x00732463#32 = .error (.noHandlerForFunct3 .branch 2#3) ∧
    decode 0x00036283#32 = .error (.noHandlerForFunct3 .load 6#3) ∧
    decode 0x00737023#32 = .error (.noHandlerForFunct3 .store 7#3) ∧
    decode 0xC00022F3#32 = .error (.noHandlerForOpcode 0x73#7) ∧
    decode 0x80000000#32 = .error (.noHandlerForOpcode 0#7) ∧
    decodeBytes [0x13#8, 0#8] = .error (.notOneWord 2) := by decide

/-- One-bit immediates of 95_test_vectors.md V1. -/
theorem test_immediates_bit_by_bit :
    immGen 0x001000EF#32 = some 0x800#32 ∧ immGen 0x000FF0EF#32 = some 0xFF000#32 ∧
    immGen 0x800000EF#32 = some 0xFFF00000#32 ∧ immGen 0x7FE000EF#32 = some 0x7FE#32 ∧
    immGen 0x000000E3#32 = some 0x800#32 ∧ immGen 0x7E000063#32 = some 0x7E0#32 ∧
    immGen 0x80000063#32 = some 0xFFFFF000#32 ∧ immGen 0x7E731023#32 = some 0x7E0#32 ∧
    immGen 0xFFF31293#32 = some 0x1F#32 ∧ immGen 0x007302B3#32 = none ∧ immGen 0x00000073#32 = none := by decide

/-- The encoder gives the spec's words (R88, R90, R89, R97's standard form). -/
theorem test_encode_words :
    encode (.jal 0 0xFFFFFFFC#32) = 0xFFDFF06F#32 ∧ encode (.bne 6 0 0xFFFFFFF8#32) = 0xFE031CE3#32 ∧
    encode (.sw 5 5 0xFFFFFFFE#32) = 0xFE52AF23#32 ∧ encode (.slli 5 6 4#5) = 0x00431293#32 ∧
    encode (.srai 5 6 4#5) = 0x40435293#32 ∧ encode (.jalr 5 5 12#32) = 0x00C282E7#32 := by decide

theorem test_table_word : decodeTableWord 32 0x00500093 = some (.addi 1 0 5#32) := by decide

/-! ## One step of each instruction (the Example of each rule) -/

theorem test_addi : x5After 0xFFF30293 0x80000000#32 0#32 = some 0x7FFFFFFF#32 := by decide
theorem test_slti :
    x5After 0xFFF32293 0xFFFFFFFE#32 0#32 = some 1#32 ∧ x5After 0xFFF32293 0#32 0#32 = some 0#32 := by decide
theorem test_sltiu : x5After 0xFFF33293 7#32 0#32 = some 1#32 ∧ x5After 0x00133293 7#32 0#32 = some 0#32 := by decide
theorem test_xori : x5After 0xFFF34293 0x0000FFFF#32 0#32 = some 0xFFFF0000#32 := by decide
theorem test_ori : x5After 0x0F036293 0x12345608#32 0#32 = some 0x123456F8#32 := by decide
theorem test_andi : x5After 0xFF037293 0x12345678#32 0#32 = some 0x12345670#32 := by decide
theorem test_slli : x5After 0x02131293 0x40000001#32 0#32 = some 0x80000002#32 := by decide
theorem test_srli : x5After 0x00435293 0x80000010#32 0#32 = some 0x08000001#32 := by decide
theorem test_srai : x5After 0x40435293 0x80000010#32 0#32 = some 0xF8000001#32 := by decide
theorem test_add : x5After 0x007302B3 0xFFFFFFFF#32 2#32 = some 1#32 := by decide
theorem test_sub : x5After 0x407302B3 3#32 5#32 = some 0xFFFFFFFE#32 := by decide
theorem test_sll : x5After 0x027312B3 1#32 0x21#32 = some 2#32 := by decide
theorem test_slt : x5After 0x007322B3 0xFFFFFFFF#32 1#32 = some 1#32 := by decide
theorem test_sltu : x5After 0x007332B3 0xFFFFFFFF#32 1#32 = some 0#32 := by decide
theorem test_xor : x5After 0x007342B3 0xFF00FF00#32 0x0FF00FF0#32 = some 0xF0F0F0F0#32 := by decide
theorem test_srl : x5After 0x007352B3 0x80000000#32 63#32 = some 1#32 := by decide
theorem test_sra : x5After 0x407352B3 0xFFFFFF00#32 4#32 = some 0xFFFFFFF0#32 := by decide
theorem test_or : x5After 0x007362B3 0xFF00FF00#32 0x0FF00FF0#32 = some 0xFFF0FFF0#32 := by decide
theorem test_and : x5After 0x007372B3 0xFF00FF00#32 0x0FF00FF0#32 = some 0x0F000F00#32 := by decide
theorem test_lui : x5After 0x89ABD2B7 0#32 0#32 = some 0x89ABD000#32 := by decide
theorem test_auipc_wraps :
    (runAt State.reset 0x2000#32 0xFFFFF297).map (fun t => t.readReg 5) = some 0x1000#32 := by decide
theorem test_jal :
    (runAt State.reset 8#32 0x00C000EF).map (fun t => (t.readReg 1, t.pcNext)) = some (12#32, 20#32) := by decide
theorem test_jalr_clears_bit0 : (runAt (State.reset.writeReg 5 0x101#32) 0x20#32 0xFFF280E7).map
    (fun t => (t.readReg 1, t.pcNext)) = some (0x24#32, 0x100#32) := by decide
theorem test_jalr_rd_is_rs1 : (runAt State.reset 4#32 0x00C282E7).map (fun t => (t.readReg 5, t.pcNext)) =
    some (8#32, 12#32) := by decide
theorem test_beq :
    branchAt100 0x00730463 5#32 5#32 = some 0x108#32 ∧ branchAt100 0x00730463 5#32 6#32 = some 0x104#32 := by decide
theorem test_bne :
    branchAt100 0xFE731CE3 1#32 0#32 = some 0xF8#32 ∧ branchAt100 0xFE731CE3 1#32 1#32 = some 0x104#32 := by decide
theorem test_blt : branchAt100 0x00734863 0xFFFFFFFF#32 1#32 = some 0x110#32 := by decide
theorem test_bge :
    branchAt100 0x00735863 0xFFFFFFFF#32 1#32 = some 0x104#32 ∧
      branchAt100 0x00735863 1#32 1#32 = some 0x110#32 := by decide
theorem test_bltu : branchAt100 0x00736863 0xFFFFFFFF#32 1#32 = some 0x104#32 := by decide
theorem test_bgeu : branchAt100 0x00737863 0xFFFFFFFF#32 1#32 = some 0x110#32 := by decide
theorem test_lb :
    (runOne (withData.writeReg 6 0x200#32) 0x00030283).map (fun t => t.readReg 5) = some 0xFFFFFFEF#32 := by decide
theorem test_lh :
    (runOne (withData.writeReg 6 0x200#32) 0x00231283).map (fun t => t.readReg 5) = some 0xFFFF89AB#32 := by decide
theorem test_lw :
    (runOne (withData.writeReg 6 0x204#32) 0xFFC32283).map (fun t => t.readReg 5) = some 0x89ABCDEF#32 := by decide
theorem test_lbu :
    (runOne (withData.writeReg 6 0x200#32) 0x00334283).map (fun t => t.readReg 5) = some 0x89#32 := by decide
theorem test_lhu :
    (runOne (withData.writeReg 6 0x202#32) 0x00035283).map (fun t => t.readReg 5) = some 0x89AB#32 := by decide
theorem test_sb : (runOne (withX6X7 0x205#32 0x89ABCDEF#32) 0x00730023).map (fun t => Memory.getBytes t.mem 0x204 4) =
    some [0#8, 0xEF#8, 0#8, 0#8] := by decide
theorem test_sh : (runOne (withX6X7 0x204#32 0x89ABCDEF#32) 0x00731123).map (fun t => Memory.getBytes t.mem 0x204 4) =
    some [0#8, 0#8, 0xEF#8, 0xCD#8] := by decide
theorem test_sw : (runOne (withX6X7 0x204#32 0x89ABCDEF#32) 0xFE732E23).map (fun t => Memory.getBytes t.mem 0x200 4) =
    some [0xEF#8, 0xCD#8, 0xAB#8, 0x89#8] := by decide
theorem test_halt : (runOne State.reset 0).map (fun t => (t.status, t.pc, t.pcNext)) =
    some (.halted .zeroWord, 0#32, 4#32) := by decide
theorem test_fence : (runOne State.reset 0x0FF0000F).map State.status =
    some (.faulted (.illegalInstruction 0#32 0x0FF0000F#32)) := by decide
theorem test_fence_i : (runOne State.reset 0x0000100F).map State.status =
    some (.faulted (.illegalInstruction 0#32 0x0000100F#32)) := by decide
theorem test_ecall : (runAt State.reset 4#32 0x00000073).map State.status =
    some (.faulted (.illegalInstruction 4#32 0x00000073#32)) := by decide
theorem test_ebreak : (runOne State.reset 0x00100073).map State.status =
    some (.faulted (.illegalInstruction 0#32 0x00100073#32)) := by decide

/-! ## Faults, the sentinel, x0 (95_test_vectors.md S5, P3, P5, S2) -/

theorem test_store_alignment_before_bounds :
    (runAt (State.reset.writeReg 5 0x10000#32) 4#32 0xFE52AF23).map (fun t => (t.status, t.pc, t.pcNext)) =
      some (.faulted (.unalignedAccess 4#32 0xFFFE#32 .word .store (some 0xFE52AF23#32)), 4#32, 8#32) ∧
    (runAt (loose (State.reset.writeReg 5 0x10000#32)) 4#32 0xFE52AF23).map State.status =
      some (.faulted (.outOfBounds 4#32 0xFFFE#32 .word .store (some 0xFE52AF23#32))) := by decide
theorem test_load_past_end : (runAt (State.reset.writeReg 5 0x10000#32) 4#32 0x0002A303).map State.status =
    some (.faulted (.outOfBounds 4#32 0x10000#32 .word .load (some 0x0002A303#32))) := by decide
theorem test_unlisted_word_is_illegal : (runAt State.reset 4#32 0x027302B3).map State.status =
    some (.faulted (.illegalInstruction 4#32 0x027302B3#32)) := by decide
theorem test_bad_target_faults_at_fetch : (nextState (step (State.reset.setPcNext 0xFFFFFFFC#32))).map
    (fun t => (t.status, t.pc, t.pcNext)) =
    some (.faulted (.outOfBounds 0xFFFFFFFC#32 0xFFFFFFFC#32 .word .fetch none), 0xFFFFFFFC#32, 0#32) := by decide
theorem test_sentinel_ignores_bit0 : (nextState (step (State.reset.setPcNext 0xFFFF0001#32))).map
    (fun t => (t.status, t.pc, t.pcNext)) = some (.halted .sentinelReached, 0#32, 0xFFFF0001#32) := by decide
theorem test_write_to_x0_is_dropped : (runOne State.reset 0x00500013).map (fun t => t.readReg 0) = some 0#32 := by decide
theorem test_load_to_x0_can_fault : (runOne (State.reset.writeReg 5 0x10000#32) 0x0002A003).map State.status =
    some (.faulted (.outOfBounds 0#32 0x10000#32 .word .load (some 0x0002A003#32))) := by decide
theorem test_misaligned_load_when_loose : (runOne (loose (withData.writeReg 6 0x201#32)) 0x00032283).map
    (fun t => t.readReg 5) = some 0x0089ABCD#32 := by decide

/-- The image of program P1 (95_test_vectors.md): construction loads it and the first cycle runs its first word. -/
theorem test_constructed_program_starts :
    ((construct Config.reference (some [0x93#8, 0x00#8, 0x50#8, 0x00#8])).toOption.bind (fun s => nextState (step s))).map
      (fun t => (t.readReg 1, t.pc, t.pcNext)) = some (5#32, 0#32, 4#32) := by decide

/-! ## Witnesses: for each statement with hypotheses, a state and operands that meet them all together; for a statement with
clauses, each clause at the ends of its range. -/

/-- Reset with `x5` at the end of memory. -/
def atEnd : State := State.reset.writeReg 5 0x10000#32

theorem witness_ConstructionSetsRegistersAndPc :
    ∃ t, construct { Config.reference with capacity := 4 } (some [1#8, 2#8, 3#8, 4#8]) = .ok t := ⟨_, rfl⟩

theorem witness_ConstructionCopiesTheImageOrFails :
    (Config.reference.startOffset.toNat + (List.replicate 4 1#8).length ≤ ({ Config.reference with capacity := 4 } : Config).capacity) ∧
    (({ Config.reference with capacity := 3 } : Config).capacity < Config.reference.startOffset.toNat + (List.replicate 4 1#8).length) := by
  decide

/-- Accesses that pass both checks, the last of each width and one that is misaligned without strict alignment. -/
theorem witness_access_ok :
    AccessOk State.reset.cfg 0xFFFF#32 Width.byte.bytes ∧ AccessOk State.reset.cfg 0xFFFE#32 Width.half.bytes ∧
    AccessOk State.reset.cfg 0xFFFC#32 Width.word.bytes ∧ AccessOk (loose State.reset).cfg 0xFFFB#32 Width.word.bytes := by
  unfold AccessOk; decide

/-- Accesses that fail the alignment check, also where they would fail the bounds check. -/
theorem witness_misaligned :
    Misaligned State.reset.cfg 1#32 Width.half.bytes ∧ Misaligned State.reset.cfg 2#32 Width.word.bytes ∧
    Misaligned State.reset.cfg 0xFFFFFFFF#32 Width.word.bytes := by
  unfold Misaligned; decide

/-- Accesses that fail the bounds check alone, the first of each width, and one whose sum passes 2^32. -/
theorem witness_past_end :
    PastEnd State.reset.cfg 0x10000#32 Width.byte.bytes ∧ PastEnd State.reset.cfg 0x10000#32 Width.half.bytes ∧
    PastEnd State.reset.cfg 0x10000#32 Width.word.bytes ∧ PastEnd (loose State.reset).cfg 0xFFFD#32 Width.word.bytes ∧
    PastEnd (loose State.reset).cfg 0xFFFFFFFF#32 Width.word.bytes := by
  unfold PastEnd; decide

theorem witness_MemReadContract :
    AccessOk State.reset.cfg 0xFFFC#32 Width.word.bytes ∧ Misaligned State.reset.cfg 0xFFFD#32 Width.word.bytes ∧
    PastEnd State.reset.cfg 0x10000#32 Width.word.bytes := by
  unfold AccessOk Misaligned PastEnd; decide

theorem witness_MemWriteContract :
    AccessOk State.reset.cfg 0xFFFE#32 Width.half.bytes ∧ Misaligned State.reset.cfg 0xFFFF#32 Width.half.bytes ∧
    PastEnd State.reset.cfg 0x10000#32 Width.half.bytes := by
  unfold AccessOk Misaligned PastEnd; decide

theorem witness_MemoryRoundTrip :
    AccessOk State.reset.cfg 0x103#32 Width.byte.bytes ∧ AccessOk (loose State.reset).cfg 0xFFFB#32 Width.word.bytes := by
  unfold AccessOk; decide

theorem witness_ByteOrderIsLittleEndian :
    State.reset.cfg.wf ∧ ∃ t, State.reset.memWrite 0xFFFC#32 .word 0x89ABCDEF#32 none = .ok t := ⟨by decide, _, rfl⟩

theorem witness_CanonicalMemoriesAreEqualWhenReadsAgree :
    Memory.wf (Memory.set [] 5 1#8) ∧ Memory.wf [(5, 1#8)] ∧
      ∀ a, Memory.get (Memory.set [] 5 1#8) a = Memory.get [(5, 1#8)] a :=
  ⟨by decide, by decide, fun _ => rfl⟩

/-- The words of `EncodedAs`, one per class that compares less than the whole word. -/
theorem witness_EncodedAs :
    (0x89ABD2B7#32 &&& 0x7F#32 = 0x37#32) ∧ (0xFFFFF297#32 &&& 0x7F#32 = 0x17#32) ∧ (0xFFDFF06F#32 &&& 0x7F#32 = 0x6F#32) ∧
    (0xFFF280E7#32 &&& 0x707F#32 = 0x67#32) ∧ (0xFE031CE3#32 &&& 0x707F#32 = 0x1063#32) ∧
    (0xFFC32283#32 &&& 0x707F#32 = 0x2003#32) ∧ (0xFE52AF23#32 &&& 0x707F#32 = 0x2023#32) ∧
    (0xFFF31293#32 &&& 0x707F#32 = 0x1013#32) ∧ (0x40435293#32 &&& 0xFE00707F#32 = 0x40005013#32) ∧
    (0x407302B3#32 &&& 0xFE00707F#32 = 0x40000033#32) ∧ (0xFE7372B3#32 &&& 0x707F#32 = 0x7033#32) ∧
    (0x0FF0000F#32 &&& 0x707F#32 = 0x000F#32) ∧ (0x0000100F#32 &&& 0x707F#32 = 0x100F#32) := by decide

theorem witness_ByteLoadsExtendTheByte : AccessOk atEnd.cfg (atEnd.effAddr 5 0xFFFFFFFF#32) 1 := by
  unfold AccessOk; decide

theorem witness_HalfLoadsExtendTheHalfword :
    AccessOk atEnd.cfg (atEnd.effAddr 5 0xFFFFFFFE#32) 2 ∧ AccessOk (loose atEnd).cfg ((loose atEnd).effAddr 5 0xFFFFFFFD#32) 2 := by
  unfold AccessOk; decide

theorem witness_WordLoadWritesTheWord :
    AccessOk atEnd.cfg (atEnd.effAddr 5 0xFFFFFFFC#32) 4 ∧ AccessOk (loose atEnd).cfg ((loose atEnd).effAddr 5 0xFFFFFFFB#32) 4 := by
  unfold AccessOk; decide

theorem witness_LoadsTakeAccessFaults :
    Misaligned atEnd.cfg (atEnd.effAddr 5 0xFFFFFFFF#32) Width.half.bytes ∧
    Misaligned atEnd.cfg (atEnd.effAddr 5 2#32) Width.word.bytes ∧ PastEnd atEnd.cfg (atEnd.effAddr 5 0#32) Width.byte.bytes ∧
    PastEnd atEnd.cfg (atEnd.effAddr 5 0#32) Width.half.bytes ∧
    PastEnd (loose atEnd).cfg ((loose atEnd).effAddr 5 0xFFFFFFFD#32) Width.word.bytes := by
  unfold Misaligned PastEnd; decide

theorem witness_StoresWriteLowBytes :
    AccessOk atEnd.cfg (atEnd.effAddr 5 0xFFFFFFFF#32) 1 ∧ AccessOk atEnd.cfg (atEnd.effAddr 5 0xFFFFFFFE#32) 2 ∧
    AccessOk atEnd.cfg (atEnd.effAddr 5 0xFFFFFFFC#32) 4 ∧ AccessOk (loose atEnd).cfg ((loose atEnd).effAddr 5 0xFFFFFFFB#32) 4 := by
  unfold AccessOk; decide

theorem witness_StoresTakeAccessFaults :
    Misaligned atEnd.cfg (atEnd.effAddr 5 0xFFFFFFFF#32) Width.half.bytes ∧
    Misaligned atEnd.cfg (atEnd.effAddr 5 0xFFFFFFFE#32) Width.word.bytes ∧
    PastEnd atEnd.cfg (atEnd.effAddr 5 0#32) Width.byte.bytes ∧
    PastEnd (loose atEnd).cfg ((loose atEnd).effAddr 5 0xFFFFFFFF#32) Width.half.bytes ∧
    PastEnd (loose atEnd).cfg ((loose atEnd).effAddr 5 0xFFFFFFFE#32) Width.word.bytes := by
  unfold Misaligned PastEnd; decide

/-- ADD and SUB with the lowest and the highest funct7 that has no handler. -/
theorem witness_RegisterAluResults :
    (0x027302B3#32 &&& 0x707F#32 = 0x0033#32 ∧ fieldFunct7 0x027302B3#32 ≠ 0x00#7 ∧ fieldFunct7 0x027302B3#32 ≠ 0x20#7) ∧
    (0xFE7302B3#32 &&& 0x707F#32 = 0x0033#32 ∧ fieldFunct7 0xFE7302B3#32 ≠ 0x00#7 ∧ fieldFunct7 0xFE7302B3#32 ≠ 0x20#7) := by
  decide

/-- The words with a funct7 that has no handler. -/
theorem witness_ShiftResults :
    (0x02A5D513#32 &&& 0x707F#32 = 0x5013#32 ∧ fieldFunct7 0x02A5D513#32 ≠ 0x00#7 ∧ fieldFunct7 0x02A5D513#32 ≠ 0x20#7) ∧
    (0x027352B3#32 &&& 0x707F#32 = 0x5033#32 ∧ fieldFunct7 0x027352B3#32 ≠ 0x00#7 ∧ fieldFunct7 0x027352B3#32 ≠ 0x20#7) := by
  decide

theorem witness_HaltWordStopsTheRun :
    State.reset.status = .running ∧ State.reset.pcNext >>> 1 ≠ State.reset.cfg.haltSentinel >>> 1 ∧
    AccessOk State.reset.cfg State.reset.pcNext 4 ∧
    (∀ k < 4, Memory.get State.reset.mem (State.reset.pcNext.toNat + k) = 0#8) := by
  unfold AccessOk; decide

theorem witness_OnlyTheDestinationRegisterChanges :
    (∃ t, exec (.addi 5 6 1#32) State.reset = .next t) ∧ destination (.addi 5 6 1#32) ≠ some 6 := ⟨⟨_, rfl⟩, by decide⟩

/-- A register that is neither, the destination of an instruction without an access, of a load in bounds and of one that
runs past the end. -/
theorem witness_OnlyTheSourceRegistersAreRead :
    ((7 : RegIdx) ∉ sources (.add 5 6 1) ∧ destination (.add 5 6 1) ≠ some 7) ∧
    ((5 : RegIdx) ∉ sources (.add 5 6 1) ∧ destination (.add 5 6 1) = some 5 ∧ DataAccessOk (.add 5 6 1) atEnd) ∧
    ((6 : RegIdx) ∉ sources (.lb 6 5 0xFFFFFFFF#32) ∧ destination (.lb 6 5 0xFFFFFFFF#32) = some 6 ∧
      DataAccessOk (.lb 6 5 0xFFFFFFFF#32) atEnd) ∧
    ((6 : RegIdx) ∉ sources (.lb 6 5 0#32) ∧ destination (.lb 6 5 0#32) = some 6 ∧ ¬ DataAccessOk (.lb 6 5 0#32) atEnd) := by
  refine ⟨by decide, ⟨by decide, by decide, fun _ _ _ h => by cases h⟩, ⟨by decide, by decide, fun _ _ _ h => ?_⟩,
    by decide, by decide, fun h => ?_⟩
  · cases h
    unfold AccessOk
    decide
  · have h2 := (h _ _ _ rfl).2
    revert h2
    decide

theorem witness_OnlyStoresChangeMemoryWithinTheirRange :
    (∃ t, exec (.sh 5 6 0xFFFFFFFE#32) atEnd = .next t) ∧
    (∀ base n, storedRange (.sh 5 6 0xFFFFFFFE#32) atEnd = some (base, n) → (0xFFFD < base ∨ base + n ≤ 0xFFFD)) ∧
    (∀ base n, storedRange (.lw 5 6 0#32) atEnd = some (base, n) → (0 < base ∨ base + n ≤ 0)) := by
  refine ⟨⟨_, rfl⟩, fun base n h => ?_, fun base n h => by cases h⟩
  have h' : some (0xFFFE, 2) = some (base, n) := h
  cases h'
  exact .inl (by decide)

theorem witness_OnlyControlTransfersOverridePcNext :
    ∃ t, exec (.beq 0 0 8#32) State.reset = .next t := ⟨_, rfl⟩

theorem witness_ParametersAreFixedForTheRun : ∃ t, step State.reset = .next t := ⟨_, rfl⟩

/-- Reset with `addi x1,x0,5` at the entry point. -/
def addiAtEntry : State := State.reset.withFetchWord 32 0x00500093

theorem witness_StepRunsTheDecodedInstruction :
    addiAtEntry.status = .running ∧ addiAtEntry.pcNext >>> 1 ≠ addiAtEntry.cfg.haltSentinel >>> 1 ∧
    AccessOk addiAtEntry.cfg addiAtEntry.pcNext 4 ∧
    0x00500093#32 = Memory.get addiAtEntry.mem 3 ++ Memory.get addiAtEntry.mem 2 ++
      Memory.get addiAtEntry.mem 1 ++ Memory.get addiAtEntry.mem 0 ∧
    decode 0x00500093#32 = .ok (.addi 1 0 5#32) := by
  unfold AccessOk; decide

/-- One state for each clause of the cycle: the sentinel, a misaligned fetch, a fetch past the end, and at the entry point
the zero word, a word without a handler and a word with one. -/
theorem witness_CycleFollowsTheSpec :
    State.reset.status = .running ∧
    ((State.reset.setPcNext 0xFFFF0001#32).pcNext &&& 0xFFFFFFFE#32 = State.reset.cfg.haltSentinel &&& 0xFFFFFFFE#32) ∧
    (State.reset.pcNext &&& 0xFFFFFFFE#32 ≠ State.reset.cfg.haltSentinel &&& 0xFFFFFFFE#32) ∧
    Misaligned State.reset.cfg 0xFFFE#32 4 ∧ PastEnd State.reset.cfg 0x10000#32 4 ∧ AccessOk State.reset.cfg 0xFFFC#32 4 ∧
    hasHandler 0x00000073#32 = false ∧ decode 0x00500093#32 = .ok (.addi 1 0 5#32) := by
  unfold AccessOk Misaligned PastEnd; decide

theorem witness_SentinelEndsTheRunBeforeAnyFetch :
    State.reset.status = .running ∧
    (State.reset.setPcNext 0xFFFF0001#32).pcNext >>> 1 = State.reset.cfg.haltSentinel >>> 1 ∧
    (State.reset.setPcNext 0xFFFF0002#32).pcNext >>> 1 ≠ State.reset.cfg.haltSentinel >>> 1 := by decide

theorem witness_TerminalStatusIsFinal : (State.reset.setStatus (.halted .zeroWord)).status ≠ .running := by decide

/-- Reset with ECALL at the entry point, and the state it faults into. -/
def ecallAtEntry : State := State.reset.withFetchWord 32 0x00000073

theorem witness_FaultsArePrecise :
    ecallAtEntry.status = .running ∧ ∃ t, step ecallAtEntry = .next t ∧
      t.status = .faulted (.illegalInstruction 0#32 0x00000073#32) := ⟨by decide, _, rfl, by decide⟩

/-- Program P5 at its store: `sw x5,-2(x5)` at address 4, misaligned and running past the end. -/
def p5 : State := ((State.reset.writeReg 5 0x10000#32).setPcNext 4#32).withFetchWord 32 0xFE52AF23

/-- A fault of the fetch, one of a data access, one of the word. -/
theorem witness_FaultRecordsTellTheTruth :
    ((State.reset.setPcNext 2#32).status = .running ∧ ∃ t, step (State.reset.setPcNext 2#32) = .next t ∧
      t.status = .faulted (.unalignedAccess 2#32 2#32 .word .fetch none)) ∧
    (p5.status = .running ∧ ∃ t, step p5 = .next t ∧
      t.status = .faulted (.unalignedAccess 4#32 0xFFFE#32 .word .store (some 0xFE52AF23#32))) ∧
    (ecallAtEntry.status = .running ∧ ∃ t, step ecallAtEntry = .next t ∧
      t.status = .faulted (.illegalInstruction 0#32 0x00000073#32)) :=
  ⟨⟨by decide, _, rfl, by decide⟩, ⟨by decide, _, rfl, by decide⟩, by decide, _, rfl, by decide⟩

/-- Program P6 at its store: `sw x5,12(x0)` at address 8, the stored word fetched next. -/
def p6 : State := { State.reset with pc := 8#32, pcNext := 12#32 }

theorem witness_StoreIsSeenByTheNextFetch :
    (p6.writeReg 5 0x00700313#32).status = .running ∧
    (∃ t, exec (.sw 0 5 12#32) (p6.writeReg 5 0x00700313#32) = .next t ∧ t.status = .running) ∧
    (p6.writeReg 5 0x00700313#32).effAddr 0 12#32 = (p6.writeReg 5 0x00700313#32).pcNext :=
  ⟨by decide, ⟨_, rfl, by decide⟩, by decide⟩

theorem witness_HostObservesTheSnapshot :
    State.reset.status = .running ∧
    (∃ snap, (State.reset.setStatus (.halted .zeroWord)).report = .halted .zeroWord snap) ∧
    (State.reset.setStatus (.faulted (.illegalInstruction 0#32 1#32))).status = .faulted (.illegalInstruction 0#32 1#32) :=
  ⟨rfl, ⟨_, rfl⟩, rfl⟩

/-- A configuration with the largest capacity and an odd entry point. -/
def largeOdd : Config where
  capacity := 2 ^ 32
  strictAlign := false
  entrypoint := 1#32
  haltSentinel := 0#32

theorem witness_ConstructionEstablishesTheInvariant :
    largeOdd.wf ∧ ∃ t, construct largeOdd (some [0x13#8]) = .ok t := ⟨by decide, _, rfl⟩

theorem witness_EveryStepKeepsTheInvariant :
    (State.initial largeOdd [(7, 1#8)]).Inv ∧ ∃ t, step (State.initial largeOdd [(7, 1#8)]) = .next t :=
  ⟨⟨by decide, by decide, by decide, fun h => absurd h (by decide), trivial⟩, _, rfl⟩

theorem witness_EveryRunKeepsTheInvariant :
    largeOdd.wf ∧ (∃ s, construct largeOdd (some [0x13#8]) = .ok s ∧ ∃ t, Host.Core.run Sys2Proof.core 1 s = .next t) :=
  ⟨by decide, _, rfl, _, rfl⟩

theorem witness_SafeRunsAreSafeThroughout : SafeFor (0 + 1) addiAtEntry :=
  ⟨_, rfl, fun f h => by cases h⟩

theorem witness_DecodeOfEncodeIsTheInstruction :
    WellFormed (.bgeu 31 30 0xFFFFF000#32) = true ∧ WellFormed (.fence 0x1FFFF#17 31#5) = true := by decide

theorem witness_DecodedWordIsTheEncodingInItsKeptBits : decode 0xFFF31293#32 = .ok (.slli 5 6 31#5) := by decide

theorem witness_NoWordSelectsTwoRows :
    (⟨"SUB", 0xFE00707F#32, 0x40000033#32⟩ : TableRow) ∈ opcodeTable ∧ 0x407302B3#32 &&& 0xFE00707F#32 = 0x40000033#32 := by
  decide

/-- A word of each class, and the highest bit. -/
theorem witness_ImmediateBits :
    (0x89ABD2B7#32 &&& 0x7F#32 ∈ [0x37#32, 0x17#32]) ∧ (0xFFDFF06F#32 &&& 0x7F#32 = 0x6F#32) ∧
    (0xFFC32283#32 &&& 0x7F#32 ∈ [0x67#32, 0x03#32]) ∧ (0xFE000EE3#32 &&& 0x7F#32 = 0x63#32) ∧
    (0xFE732E23#32 &&& 0x7F#32 = 0x23#32) ∧ (0x01F31293#32 &&& 0x7F#32 = 0x13#32) ∧ 31 < 32 := by decide

theorem witness_DecoderUsesTheImmediateGenerator :
    decode 0x41F35293#32 = .ok (.srai 5 6 31#5) ∧ (Instr.srai 5 6 31#5).hasHandler = true := by decide

end Sys2Proof.Tests
end

/-! PROOF. 00_scope.md: the construction parameters are fixed for a run. -/

namespace Sys2Proof.Machine

@[simp] theorem takeFault_cfg (s : State) (f : Fault) : (s.takeFault f).cfg = s.cfg := rfl
@[simp] theorem takeIllegal_cfg (s : State) (w : Word) : (s.takeIllegal w).cfg = s.cfg := rfl

/-- No step changes a construction parameter (R6, R31): every way a step can go names its next state by updates that keep
`cfg`, and a dispatched instruction keeps it by `exec_cfg`. -/
theorem step_cfg {s t : State} (h : step s = .next t) : t.cfg = s.cfg := by
  obtain ⟨-, rfl⟩ | ⟨-, -, rfl⟩ | ⟨-, -, hrun⟩ := step_cases h
  · rfl
  · exact setStatus_cfg s _
  · rw [← advance_cfg s]
    obtain ⟨f, -, rfl⟩ | ⟨w, -, -, -, rfl⟩ | ⟨_, _, -, -, hexec⟩ := hrun
    · exact takeFault_cfg s.advance f
    · exact takeIllegal_cfg s.advance w
    · exact exec_cfg hexec

/-- Settles O32, by the cases of a step. -/
theorem parametersAreFixedForTheRun : Obligations.ParametersAreFixedForTheRun :=
  fun _ _ => step_cfg

end Sys2Proof.Machine

/-! PROOF. What a decoded word is: a well-formed instruction whose encoding is the word in every bit the decoder does not
ignore (30_encoding.md rules R82 to R99). -/

namespace Sys2Proof.Machine

/-- A word stands for an instruction: the instruction is well-formed, and its encoding is the word in every bit that the
decoder does not ignore (R96, R97). -/
def StandsFor (w : Word) (i : Instr) : Prop := WellFormed i = true ∧ w &&& keptBits i = encode i &&& keptBits i

theorem standsFor_of_encode {w : Word} {i : Instr} (hi : WellFormed i = true) (he : encode i = w) : StandsFor w i :=
  ⟨hi, by rw [he]⟩

/-- Where no bit is ignored, the word is the instruction's encoding. -/
theorem StandsFor.encode_eq {w : Word} {i : Instr} (h : StandsFor w i) (hk : keptBits i = 0xFFFFFFFF#32) :
    encode i = w := by
  obtain ⟨-, he⟩ := h
  have hall : ∀ x : Word, x &&& 0xFFFFFFFF#32 = x := fun _ => BitVec.and_allOnes
  rw [hk, hall, hall] at he
  exact he.symm

section dispatch
variable {w : Word} {i : Instr}

theorem standsFor_of_dispatchBranch (h0 : fieldOpcode w = OpClass.branch.code) (h : dispatchBranch w = .ok i) :
    StandsFor w i := by
  unfold dispatchBranch at h
  split at h <;> cases h <;>
    exact standsFor_of_encode (immB_ok w) (encodeB_of_fields h0 (funct3_of_toNat (by assumption)))

theorem standsFor_of_dispatchLoad (h0 : fieldOpcode w = OpClass.load.code) (h : dispatchLoad w = .ok i) :
    StandsFor w i := by
  unfold dispatchLoad at h
  split at h <;> cases h <;>
    exact standsFor_of_encode (immI_ok w) (encodeI_of_fields h0 (funct3_of_toNat (by assumption)))

theorem standsFor_of_dispatchStore (h0 : fieldOpcode w = OpClass.store.code) (h : dispatchStore w = .ok i) :
    StandsFor w i := by
  unfold dispatchStore at h
  split at h <;> cases h <;>
    exact standsFor_of_encode (immS_ok w) (encodeS_of_fields h0 (funct3_of_toNat (by assumption)))

theorem standsFor_of_dispatchOpImm (h0 : fieldOpcode w = OpClass.opImm.code) (h : dispatchOpImm w = .ok i) :
    StandsFor w i := by
  unfold dispatchOpImm at h
  split at h
  case h_2 h3 => cases h; exact ⟨rfl, encodeShift_kept _ h0 (funct3_of_toNat h3)⟩
  case h_8 n0 n1 n2 n3 n4 n6 n7 =>
    split at h <;> cases h <;>
      exact standsFor_of_encode rfl
        (encodeShift_of_fields h0 (funct3_last n0 n1 n2 n3 n4 n6 n7) (funct7_of_toNat (by assumption)))
  all_goals
    cases h
    exact standsFor_of_encode (immI_ok w) (encodeI_of_fields h0 (funct3_of_toNat (by assumption)))

theorem standsFor_of_dispatchOp (h0 : fieldOpcode w = OpClass.op.code) (h : dispatchOp w = .ok i) : StandsFor w i := by
  unfold dispatchOp at h
  split at h
  case h_1 h3 =>
    split at h <;> cases h <;>
      exact standsFor_of_encode rfl (encodeR_of_fields h0 (funct3_of_toNat h3) (funct7_of_toNat (by assumption)))
  case h_8 n0 n1 n2 n3 n4 n6 n7 =>
    split at h <;> cases h <;>
      exact standsFor_of_encode rfl
        (encodeR_of_fields h0 (funct3_last n0 n1 n2 n3 n4 n6 n7) (funct7_of_toNat (by assumption)))
  all_goals
    cases h
    exact ⟨rfl, encodeR_kept _ h0 (funct3_of_toNat (by assumption))⟩

theorem standsFor_of_dispatchNoClass (h : dispatchNoClass w = .ok i) : StandsFor w i := by
  unfold dispatchNoClass at h
  split at h
  · next hf => cases h; exact standsFor_of_encode rfl (encodeOpen_of_fields hf.1 hf.2)
  split at h
  · next hf => cases h; exact standsFor_of_encode rfl (encodeOpen_of_fields hf.1 hf.2)
  split at h
  · next hw => cases h; exact standsFor_of_encode rfl hw.symm
  split at h
  · next hw => cases h; exact standsFor_of_encode rfl hw.symm
  · cases h

theorem standsFor_of_dispatch (h : dispatch w = .ok i) : StandsFor w i := by
  unfold dispatch at h
  split at h
  case h_1 hc => cases h; exact standsFor_of_encode (immU_ok w) (encodeU_of_fields (opClass_eq_some hc))
  case h_2 hc => cases h; exact standsFor_of_encode (immU_ok w) (encodeU_of_fields (opClass_eq_some hc))
  case h_3 hc => cases h; exact standsFor_of_encode (immJ_ok w) (encodeJ_of_fields (opClass_eq_some hc))
  case h_4 hc =>
    split at h
    · next h3 => cases h; exact standsFor_of_encode (immI_ok w) (encodeI_of_fields (opClass_eq_some hc) h3)
    · cases h
  case h_5 hc => exact standsFor_of_dispatchBranch (opClass_eq_some hc) h
  case h_6 hc => exact standsFor_of_dispatchLoad (opClass_eq_some hc) h
  case h_7 hc => exact standsFor_of_dispatchStore (opClass_eq_some hc) h
  case h_8 hc => exact standsFor_of_dispatchOpImm (opClass_eq_some hc) h
  case h_9 hc => exact standsFor_of_dispatchOp (opClass_eq_some hc) h
  case h_10 => exact standsFor_of_dispatchNoClass h

/-- A decoded word stands for its instruction. -/
theorem standsFor_of_decode (h : decode w = .ok i) : StandsFor w i := by
  unfold decode at h
  split at h
  · next hw => cases h; exact standsFor_of_encode rfl hw.symm
  · exact standsFor_of_dispatch h

end dispatch

end Sys2Proof.Machine

/-! PROOF. 10_state.md: every step keeps the invariant, and the reset state meets it (R26, R28, R29, R34). -/

namespace Sys2Proof.Machine

/-! ## Facts of the instruction alone -/

theorem wellFormed_of_branchOf {i : Instr} {c : BranchCond} {rs1 rs2 : RegIdx} {offset : Word}
    (h : branchOf i = some (c, rs1, rs2, offset)) : WellFormed i = immBOk offset := by
  cases i with
  | beq | bne | blt | bge | bltu | bgeu => cases h; rfl
  | _ => cases h

/-- No bit of a load's or a store's word is ignored. -/
theorem keptBits_of_dataAccess {i : Instr} {s : State} {a : Word × Width × AccessKind} (h : dataAccess i s = some a) :
    keptBits i = 0xFFFFFFFF#32 := by
  cases i with
  | lb | lh | lw | lbu | lhu | sb | sh | sw => rfl
  | _ => cases h

/-- No bit of a word without a handler is ignored. -/
theorem keptBits_of_no_handler {i : Instr} (h : i.hasHandler = false) : keptBits i = 0xFFFFFFFF#32 := by
  cases i with
  | fence | fenceI | ecall | ebreak => rfl
  | _ => cases h

theorem hasHandler_of_decode {w : Word} {i : Instr} (h : decode w = .ok i) : hasHandler w = i.hasHandler := by
  unfold hasHandler; rw [h]

theorem hasHandler_of_reject {w : Word} {r : DecodeReject} (h : decode w = .error r) : hasHandler w = false := by
  unfold hasHandler; rw [h]

/-! ## Parity of addresses -/

theorem even_add {x y : Word} (hx : x.toNat % 2 = 0) (hy : y.toNat % 2 = 0) : (x + y).toNat % 2 = 0 := by
  rw [BitVec.toNat_add]
  omega

theorem even_of_immBOk {offset : Word} (h : immBOk offset = true) : offset.toNat % 2 = 0 := by
  simp only [immBOk, Bool.and_eq_true, decide_eq_true_eq] at h
  exact h.2

theorem even_of_immJOk {offset : Word} (h : immJOk offset = true) : offset.toNat % 2 = 0 := by
  simp only [immJOk, Bool.and_eq_true, decide_eq_true_eq] at h
  exact h.2

/-- A well-formed instruction at an even address leaves an even next address (R26). -/
theorem exec_pcNext_even {i : Instr} {s t : State} (hi : WellFormed i = true) (hpc : s.pc.toNat % 2 = 0)
    (hnext : s.pcNext.toNat % 2 = 0) (h : exec i s = .next t) : t.pcNext.toNat % 2 = 0 := by
  cases effect_of_exec h with
  | write => rw [writeReg_pcNext]; exact hnext
  | jal rd offset hj => subst hj; exact even_add hpc (even_of_immJOk hi)
  | jalr => exact clear_bit0_even _
  | taken c rs1 rs2 offset hb => exact even_add hpc (even_of_immBOk (wellFormed_of_branchOf hb ▸ hi))
  | _ => exact hnext

theorem step_pc_even {s t : State} (hpc : s.pc.toNat % 2 = 0) (hnext : s.pcNext.toNat % 2 = 0) (h : step s = .next t) :
    t.pc.toNat % 2 = 0 ∧ t.pcNext.toNat % 2 = 0 := by
  have hadv : s.advance.pcNext.toNat % 2 = 0 := even_add hnext rfl
  obtain ⟨-, rfl⟩ | ⟨-, -, rfl⟩ | ⟨-, -, ⟨f, -, rfl⟩ | ⟨w, r, -, -, rfl⟩ | ⟨w, i, -, hd, he⟩⟩ := step_cases h
  · exact ⟨hpc, hnext⟩
  · exact ⟨hpc, hnext⟩
  · exact ⟨hnext, hadv⟩
  · exact ⟨hnext, hadv⟩
  · exact ⟨(exec_pc he).symm ▸ hnext, exec_pcNext_even (standsFor_of_decode hd).1 hnext hadv he⟩

/-! ## Memory -/

/-- An instruction lists no address past the capacity: a store has passed the bounds check (R51, R61). -/
theorem exec_mem_within {i : Instr} {s t : State} (hm : Memory.within s.mem s.cfg.capacity) (h : exec i s = .next t) :
    Memory.within t.mem s.cfg.capacity := by
  cases effect_of_exec h with
  | write => rw [writeReg_mem]; exact hm
  | jal => rw [setPcNext_mem, writeReg_mem]; exact hm
  | jalr => rw [setPcNext_mem, writeReg_mem]; exact hm
  | stored addr width v hok => exact setBytes_within hm _ _ (by rw [bytesLE_length]; exact hok.2)
  | _ => exact hm

/-- A step's memory is the memory it began with, or that of an instruction run in the advanced state. -/
theorem step_mem {s t : State} (h : step s = .next t) : t.mem = s.mem ∨ ∃ i, exec i s.advance = .next t := by
  obtain ⟨-, rfl⟩ | ⟨-, -, rfl⟩ | ⟨-, -, ⟨f, -, rfl⟩ | ⟨w, r, -, -, rfl⟩ | ⟨w, i, -, -, he⟩⟩ := step_cases h
  · exact .inl rfl
  · exact .inl rfl
  · exact .inl rfl
  · exact .inl rfl
  · exact .inr ⟨i, he⟩

theorem step_mem_wf {s t : State} (hm : Memory.wf s.mem) (h : step s = .next t) : Memory.wf t.mem := by
  obtain he | ⟨i, he⟩ := step_mem h
  · rw [he]; exact hm
  · exact exec_mem_wf he hm

theorem step_mem_within {s t : State} (hm : Memory.within s.mem s.cfg.capacity) (h : step s = .next t) :
    Memory.within t.mem s.cfg.capacity := by
  obtain he | ⟨i, he⟩ := step_mem h
  · rw [he]; exact hm
  · exact exec_mem_within (s := s.advance) hm he

/-! ## Truthful fault records -/

@[simp] theorem fetch_setStatus (s : State) (st : Status) : (s.setStatus st).fetch = s.fetch := fetch_congr rfl rfl rfl

/-- What a record says is true after the fault was taken exactly if it was true before. -/
theorem faultTrue_takeFault (s : State) (f g : Fault) : FaultTrue (s.takeFault f) g ↔ FaultTrue s g := by
  have hf : (s.takeFault f).fetch = s.fetch := fetch_setStatus s _
  have ha (pc addr width access instr) :
      AccessRecorded (s.takeFault f) pc addr width access instr ↔ AccessRecorded s pc addr width access instr := by
    unfold AccessRecorded
    simp only [hf, dataAccess_takeFault]
    rfl
  cases g with
  | outOfBounds pc addr width access instr => exact and_congr_right fun _ => ha ..
  | unalignedAccess pc addr width access instr => exact and_congr_right fun _ => ha ..
  | illegalInstruction pc w => unfold FaultTrue; rw [hf]; rfl
  | loadFailure => rfl

/-- A fault of the fetch is recorded truthfully (R241 to R243). -/
theorem faultTrue_of_fetch_error {s : State} {f : Fault} (h : s.fetch = .error f) : FaultTrue s f := by
  obtain ⟨hc, rfl⟩ | ⟨hc, rfl⟩ := fetch_error h
  · exact ⟨hc, rfl, .inl ⟨rfl, rfl, rfl, rfl⟩⟩
  · exact ⟨hc, rfl, .inl ⟨rfl, rfl, rfl, rfl⟩⟩

/-- A fault of a data access is recorded truthfully: the word of the record is the fetched word. -/
theorem faultTrue_of_dataFault {s : State} {w : Word} {i : Instr} {f : Fault} (hw : s.fetch = .ok w)
    (hd : decode w = .ok i) (h : DataFault i s f) : FaultTrue s f := by
  have he {a} (ha : dataAccess i s = some a) : encode i = w :=
    (standsFor_of_decode hd).encode_eq (keptBits_of_dataAccess ha)
  cases h with
  | misaligned addr width access ha hc => exact ⟨hc, rfl, .inr ⟨w, i, congrArg some (he ha), hw, hd, ha⟩⟩
  | pastEnd addr width access ha hc => exact ⟨hc, rfl, .inr ⟨w, i, congrArg some (he ha), hw, hd, ha⟩⟩

/-! ## A truthful ending -/

theorem endingTrue_of_running {s : State} (h : s.status = .running) : EndingTrue s := by
  unfold EndingTrue; rw [h]; trivial

/-- A true record taken in the cycle of its instruction makes a true ending (R247). -/
theorem endingTrue_takeFault {s : State} {f : Fault} (hp : s.pcNext = s.pc + 4#32) (hf : FaultTrue s f) :
    EndingTrue (s.takeFault f) :=
  ⟨hp, (faultTrue_takeFault s f f).2 hf⟩

theorem endingTrue_takeIllegal {s : State} {w : Word} (hp : s.pcNext = s.pc + 4#32) (hw : s.fetch = .ok w)
    (hh : hasHandler w = false) : EndingTrue (s.takeIllegal w) :=
  endingTrue_takeFault hp ⟨rfl, hw, hh⟩

/-- An instruction run on its fetched word in the state of an advanced pc pair ends truthfully. -/
theorem exec_endingTrue {i : Instr} {s t : State} {w : Word} (hr : s.status = .running) (hp : s.pcNext = s.pc + 4#32)
    (hw : s.fetch = .ok w) (hd : decode w = .ok i) (h : exec i s = .next t) : EndingTrue t := by
  have hs := standsFor_of_decode hd
  cases effect_of_exec h with
  | write => exact endingTrue_of_running (by rw [writeReg_status, hr])
  | jal => exact endingTrue_of_running (by rw [setPcNext_status, writeReg_status, hr])
  | jalr => exact endingTrue_of_running (by rw [setPcNext_status, writeReg_status, hr])
  | taken => exact endingTrue_of_running hr
  | notTaken => exact endingTrue_of_running hr
  | stored => exact endingTrue_of_running hr
  | dataFault f hf => exact endingTrue_takeFault hp (faultTrue_of_dataFault hw hd hf)
  | illegal hh =>
    rw [hs.encode_eq (keptBits_of_no_handler hh)]
    exact endingTrue_takeIllegal hp hw ((hasHandler_of_decode hd).trans hh)
  | halt hi =>
    subst hi
    have hzero : 0#32 = w := hs.encode_eq rfl
    exact ⟨hp, (fetch_setStatus s _).trans (hzero ▸ hw)⟩

theorem step_endingTrue {s t : State} (hs : EndingTrue s) (h : step s = .next t) : EndingTrue t := by
  obtain ⟨-, rfl⟩ | ⟨-, hsent, rfl⟩ | ⟨hr, -, ⟨f, hf, rfl⟩ | ⟨w, r, hw, hd, rfl⟩ | ⟨w, i, hw, hd, he⟩⟩ := step_cases h
  · exact hs
  · exact hsent
  · exact endingTrue_takeFault rfl (faultTrue_of_fetch_error hf)
  · exact endingTrue_takeIllegal rfl hw (hasHandler_of_reject hd)
  · exact exec_endingTrue (s := s.advance) hr rfl hw hd he

/-! ## The invariant -/

theorem step_inv {s t : State} (hs : s.Inv) (h : step s = .next t) : t.Inv := by
  have hc := step_cfg h
  obtain ⟨hcfg, hwf, hwithin, heven, hending⟩ := hs
  exact
    { cfgWf := hc ▸ hcfg
      memWf := step_mem_wf hwf h
      memWithin := hc ▸ step_mem_within hwithin h
      evenPc := fun he => (heven (hc ▸ he)).elim fun hpc hnext => step_pc_even hpc hnext h
      ending := step_endingTrue hending h }

/-- Settles O45, clause by clause: each part of the invariant is kept by a lemma on the cases of a step. -/
theorem everyStepKeepsTheInvariant : Obligations.EveryStepKeepsTheInvariant :=
  fun _ _ => step_inv

/-- Settles O43: the reset machine is running at an even entry point over an empty memory. -/
theorem resetMeetsTheInvariant : Obligations.ResetMeetsTheInvariant where
  cfgWf := by decide
  memWf := reset_mem_wf
  memWithin := by decide
  evenPc _ := ⟨rfl, rfl⟩
  ending := endingTrue_of_running rfl

end Sys2Proof.Machine

/-! PROOF. 10_state.md: the register file's laws (R22, R23), one list per memory content (R28), and that a terminal status
is final (R29). -/

namespace Sys2Proof.Machine

/-- Settles O1, from the register file's laws. -/
theorem registerFileLaws : Obligations.RegisterFileLaws := by
  refine ⟨fun s r v hr => ?_, fun s v => ⟨readReg_zero _, writeReg_zero s v⟩, readReg_zero, regWrite_writeReg⟩
  rw [readReg_writeReg, if_pos ⟨rfl, hr⟩]

/-- An address that no cell lists reads the fill. -/
theorem get_of_not_listed {m : Memory} {a : Nat} (h : ∀ c ∈ m, c.1 ≠ a) : Memory.get m a = Memory.fill := by
  induction m with
  | nil => rfl
  | cons c m ih =>
    rw [List.forall_mem_cons] at h
    rw [Memory.get, if_neg h.1, ih h.2]

/-- A canonical memory lists exactly the addresses that read other than the fill, each with the byte it reads. -/
theorem mem_iff_get {m : Memory} (h : Memory.wf m) (c : Host.Cell) :
    c ∈ m ↔ Memory.get m c.1 = c.2 ∧ c.2 ≠ Memory.fill := by
  obtain ⟨hp, hfill⟩ := h
  induction m with
  | nil =>
    rw [get_nil]
    exact ⟨nofun, fun ⟨he, hne⟩ => absurd he.symm hne⟩
  | cons d m ih =>
    rw [List.pairwise_cons] at hp
    rw [List.forall_mem_cons] at hfill
    rw [List.mem_cons, ih hp.2 hfill.2, Memory.get]
    split
    · next hdc =>
      have hm : Memory.get m c.1 = Memory.fill :=
        get_of_not_listed fun e he => by rw [← hdc]; exact (hp.1 e he).ne'
      constructor
      · rintro (rfl | ⟨hc, hne⟩)
        · exact ⟨rfl, hfill.1⟩
        · exact absurd (hc.symm.trans hm) hne
      · rintro ⟨hc, -⟩
        exact .inl (Prod.ext hdc.symm hc.symm)
    · next hdc =>
      exact or_iff_right fun hcd => hdc (by rw [hcd])

/-- Settles O9: the cells of a canonical memory are fixed by what it reads, and a strictly rising list by its members. -/
theorem canonicalMemoriesAreEqualWhenReadsAgree : Obligations.CanonicalMemoriesAreEqualWhenReadsAgree := by
  intro m n hm hn hget
  have hirr : Std.Irrefl (fun c d : Host.Cell => c.1 < d.1) := ⟨fun c => Nat.lt_irrefl c.1⟩
  have hanti : Std.Antisymm (fun c d : Host.Cell => c.1 < d.1) := ⟨fun _ _ h1 h2 => absurd h1 (Nat.lt_asymm h2)⟩
  refine hm.1.eq_of_mem_iff hn.1 fun c => ?_
  rw [mem_iff_get hm, mem_iff_get hn, hget]

/-- A run goes on from the next state of a step. -/
theorem run_succ {M : Host.Core} {s t : M.State} (h : M.step s = .next t) (n : Nat) : M.run (n + 1) s = M.run n t := by
  rw [Host.Core.run, h]

/-- Settles O36, by induction on the number of steps. -/
theorem terminalStatusIsFinal : Obligations.TerminalStatusIsFinal := by
  intro n s hs
  induction n with
  | zero => rfl
  | succ n ih => exact (run_succ (M := core) (step_terminal hs) n).trans ih

end Sys2Proof.Machine

/-! PROOF. 10_state.md: an instruction writes no register but its destination and reads none but its sources (R35). -/

namespace Sys2Proof.Machine

/-- Settles O28, by the shapes of the next state: only the first three write a register, and that is the destination. -/
theorem onlyTheDestinationRegisterChanges : Obligations.OnlyTheDestinationRegisterChanges := by
  intro i s t r h hr
  have hwrite {rd : RegIdx} (hd : destination i = some rd) (v : Word) : (s.writeReg rd v).readReg r = s.readReg r := by
    rw [readReg_writeReg]
    refine if_neg ?_
    rintro ⟨rfl, hne⟩
    exact hr.elim (· hd) hne
  cases effect_of_exec h with
  | write rd v hd => exact hwrite hd v
  | jal rd offset hi => subst hi; exact hwrite rfl _
  | jalr rd rs1 imm hi => subst hi; exact hwrite rfl _
  | _ => rfl

/-! ## A change of a register that is no source -/

/-- How a change of `x[r]` to `v` before an instruction shows in its next state, `t` being the one without the change: an
instruction that completes overwrites its destination, and in every other case the next state carries the change. -/
inductive ChangeShows (i : Instr) (s : State) (r : RegIdx) (v : Word) (t : State) : State → Prop where
  | overwritten : destination i = some r → DataAccessOk i s → ChangeShows i s r v t t
  | carried : (destination i = some r → ¬ DataAccessOk i s) → ChangeShows i s r v t (t.writeReg r v)

theorem dataAccessOk_of_none {i : Instr} {s : State} (h : dataAccess i s = none) : DataAccessOk i s :=
  fun _ _ _ ha => nomatch h.symm.trans ha

theorem dataAccessOk_iff {i : Instr} {s : State} {addr : Word} {width : Width} {access : AccessKind}
    (h : dataAccess i s = some (addr, width, access)) : DataAccessOk i s ↔ AccessOk s.cfg addr width.bytes := by
  refine ⟨fun hok => hok _ _ _ h, fun hok _ _ _ ha => ?_⟩
  cases h.symm.trans ha
  exact hok

theorem not_accessOk_of_misaligned {c : Config} {addr : Word} {n : Nat} (h : Misaligned c addr n) : ¬ AccessOk c addr n :=
  fun hok => h.2 (hok.1 h.1)

theorem not_accessOk_of_pastEnd {c : Config} {addr : Word} {n : Nat} (h : PastEnd c addr n) : ¬ AccessOk c addr n :=
  fun hok => Nat.not_le_of_lt h.2 hok.2

/-! ## Operations in a state with a changed register -/

section operations
variable (s : State) {r : RegIdx} (v : Word)

@[simp] theorem checkAccess_writeReg (r : RegIdx) (addr : Word) (width : Width) (access : AccessKind)
    (instr : Option Word) :
    (s.writeReg r v).checkAccess addr width access instr = s.checkAccess addr width access instr := by
  simp [State.checkAccess]

/-- A write to memory does not depend on the registers, and leaves them. -/
theorem memWrite_writeReg (r : RegIdx) (addr : Word) (width : Width) (x : Word) (instr : Option Word) :
    (s.writeReg r v).memWrite addr width x instr = (s.memWrite addr width x instr).map (·.writeReg r v) := by
  unfold State.memWrite
  rw [checkAccess_writeReg]
  split
  · rfl
  · rw [writeReg_mem, Except.map, writeReg_setMem]

theorem takeFault_writeReg (r : RegIdx) (f : Fault) : (s.writeReg r v).takeFault f = (s.takeFault f).writeReg r v :=
  (writeReg_setStatus s r v _).symm

theorem effAddr_writeReg {rs1 : RegIdx} (h : rs1 ≠ r) (imm : Word) :
    (s.writeReg r v).effAddr rs1 imm = s.effAddr rs1 imm := by
  rw [State.effAddr, readReg_writeReg_of_ne s h, State.effAddr]

theorem jalrTarget_writeReg {rs1 : RegIdx} (h : rs1 ≠ r) (imm : Word) :
    (s.writeReg r v).jalrTarget rs1 imm = s.jalrTarget rs1 imm := by
  rw [State.jalrTarget, readReg_writeReg_of_ne s h, State.jalrTarget]

@[simp] theorem pcRel_writeReg (r : RegIdx) (offset : Word) : (s.writeReg r v).pcRel offset = s.pcRel offset := by
  rw [State.pcRel, writeReg_pc, State.pcRel]

@[simp] theorem linkValue_writeReg (r : RegIdx) : (s.writeReg r v).linkValue = s.linkValue := by
  rw [State.linkValue, writeReg_pc, State.linkValue]

theorem storeFrom_writeReg {rs1 rs2 : RegIdx} (h1 : rs1 ≠ r) (h2 : rs2 ≠ r) (w : Word) (width : Width) (imm : Word) :
    (s.writeReg r v).storeFrom w width rs1 rs2 imm = (s.storeFrom w width rs1 rs2 imm).writeReg r v := by
  unfold State.storeFrom
  rw [effAddr_writeReg s v h1, readReg_writeReg_of_ne s h2, memWrite_writeReg]
  cases s.memWrite (s.effAddr rs1 imm) width (s.readReg rs2) (some w) with
  | error f => exact takeFault_writeReg s v r f
  | ok t => rfl

theorem branchIf_writeReg {rs1 rs2 : RegIdx} (h1 : rs1 ≠ r) (h2 : rs2 ≠ r) (c : BranchCond) (offset : Word) :
    (s.writeReg r v).branchIf c rs1 rs2 offset = (s.branchIf c rs1 rs2 offset).writeReg r v := by
  unfold State.branchIf
  rw [readReg_writeReg_of_ne s h1, readReg_writeReg_of_ne s h2]
  split
  · rw [writeReg_setPcNext, pcRel_writeReg]
  · rfl

end operations

/-! ## How a change shows, shape by shape -/

theorem ne_of_not_mem_pair {r rs1 rs2 : RegIdx} (h : r ∉ [rs1, rs2]) : rs1 ≠ r ∧ rs2 ≠ r := by
  rw [List.mem_pair, not_or] at h
  exact ⟨Ne.symm h.1, Ne.symm h.2⟩

section shapes
variable {i : Instr} {s : State} {r rd rs1 rs2 : RegIdx} {v x y : Word}

theorem changeShows_write (hd : destination i = some rd) (ha : DataAccessOk i s) (hxy : y = x) :
    ChangeShows i s r v (s.writeReg rd x) ((s.writeReg r v).writeReg rd y) := by
  subst hxy
  by_cases h : r = rd
  · subst h
    rw [writeReg_writeReg]
    exact .overwritten hd ha
  · rw [writeReg_comm s h]
    exact .carried fun hr => absurd (Option.some.inj (hr.symm.trans hd)) h

theorem changeShows_aluImm {op : AluOp} {imm : Word} (hd : destination i = some rd) (ha : dataAccess i s = none)
    (hr : r ∉ [rs1]) : ChangeShows i s r v (s.aluImm op rd rs1 imm) ((s.writeReg r v).aluImm op rd rs1 imm) := by
  have h1 : rs1 ≠ r := (List.ne_of_not_mem_cons hr).symm
  exact changeShows_write hd (dataAccessOk_of_none ha) (by rw [readReg_writeReg_of_ne s h1])

theorem changeShows_aluReg {op : AluOp} (hd : destination i = some rd) (ha : dataAccess i s = none)
    (hr : r ∉ [rs1, rs2]) : ChangeShows i s r v (s.aluReg op rd rs1 rs2) ((s.writeReg r v).aluReg op rd rs1 rs2) := by
  obtain ⟨h1, h2⟩ := ne_of_not_mem_pair hr
  exact changeShows_write hd (dataAccessOk_of_none ha)
    (by rw [readReg_writeReg_of_ne s h1, readReg_writeReg_of_ne s h2])

theorem changeShows_setPcNext {t u : State} {p q : Word} (h : ChangeShows i s r v t u) (hpq : q = p) :
    ChangeShows i s r v (t.setPcNext p) (u.setPcNext q) := by
  subst hpq
  cases h with
  | overwritten hd ha => exact .overwritten hd ha
  | carried h => exact writeReg_setPcNext t r v q ▸ .carried h

theorem changeShows_takeFault (h : destination i = some r → ¬ DataAccessOk i s) (f : Fault) :
    ChangeShows i s r v (s.takeFault f) ((s.writeReg r v).takeFault f) :=
  takeFault_writeReg s v r f ▸ .carried h

theorem changeShows_load {w : Word} {width : Width} {extend : Word → Word} {imm : Word} (hd : destination i = some rd)
    (ha : dataAccess i s = some (s.effAddr rs1 imm, width, .load)) (hr : r ∉ [rs1]) :
    ChangeShows i s r v (s.loadInto w width extend rd rs1 imm) ((s.writeReg r v).loadInto w width extend rd rs1 imm) := by
  have h1 : rs1 ≠ r := (List.ne_of_not_mem_cons hr).symm
  unfold State.loadInto
  rw [effAddr_writeReg s v h1, memRead_writeReg]
  obtain hc | hc | hc := access_cases s.cfg (s.effAddr rs1 imm) width.bytes
  · rw [memRead_ok hc]
    exact changeShows_write hd ((dataAccessOk_iff ha).2 hc) rfl
  · rw [memRead_misaligned hc]
    exact changeShows_takeFault (fun _ hok => not_accessOk_of_misaligned hc ((dataAccessOk_iff ha).1 hok)) _
  · rw [memRead_pastEnd hc]
    exact changeShows_takeFault (fun _ hok => not_accessOk_of_pastEnd hc ((dataAccessOk_iff ha).1 hok)) _

theorem changeShows_store {w : Word} {width : Width} {imm : Word} (hd : destination i = none) (hr : r ∉ [rs1, rs2]) :
    ChangeShows i s r v (s.storeFrom w width rs1 rs2 imm) ((s.writeReg r v).storeFrom w width rs1 rs2 imm) := by
  obtain ⟨h1, h2⟩ := ne_of_not_mem_pair hr
  rw [storeFrom_writeReg s v h1 h2]
  exact .carried fun h => nomatch hd.symm.trans h

theorem changeShows_branch {c : BranchCond} {offset : Word} (hd : destination i = none) (hr : r ∉ [rs1, rs2]) :
    ChangeShows i s r v (s.branchIf c rs1 rs2 offset) ((s.writeReg r v).branchIf c rs1 rs2 offset) := by
  obtain ⟨h1, h2⟩ := ne_of_not_mem_pair hr
  rw [branchIf_writeReg s v h1 h2]
  exact .carried fun h => nomatch hd.symm.trans h

theorem changeShows_illegal {w : Word} (hd : destination i = none) :
    ChangeShows i s r v (s.takeIllegal w) ((s.writeReg r v).takeIllegal w) := by
  unfold State.takeIllegal
  rw [writeReg_pc]
  exact changeShows_takeFault (fun h => nomatch hd.symm.trans h) _

end shapes

/-- A change of a register that is no source shows in the next state as `ChangeShows` says. -/
theorem exec_changeShows (i : Instr) (s : State) {r : RegIdx} (v : Word) (hr : r ∉ sources i) :
    ∃ t u, exec i s = .next t ∧ exec i (s.writeReg r v) = .next u ∧ ChangeShows i s r v t u := by
  cases i with
  | lui => exact ⟨_, _, rfl, rfl, changeShows_write rfl (dataAccessOk_of_none rfl) rfl⟩
  | auipc =>
    exact ⟨_, _, rfl, rfl, changeShows_write rfl (dataAccessOk_of_none rfl) (pcRel_writeReg s v r _)⟩
  | jal =>
    exact ⟨_, _, rfl, rfl, changeShows_setPcNext
      (changeShows_write rfl (dataAccessOk_of_none rfl) (linkValue_writeReg s v r)) (pcRel_writeReg s v r _)⟩
  | jalr rd rs1 imm =>
    exact ⟨_, _, rfl, rfl, changeShows_setPcNext
      (changeShows_write rfl (dataAccessOk_of_none rfl) (linkValue_writeReg s v r))
      (jalrTarget_writeReg s v (List.ne_of_not_mem_cons hr).symm imm)⟩
  | beq | bne | blt | bge | bltu | bgeu => exact ⟨_, _, rfl, rfl, changeShows_branch rfl hr⟩
  | lb | lh | lw | lbu | lhu => exact ⟨_, _, rfl, rfl, changeShows_load rfl rfl hr⟩
  | sb | sh | sw => exact ⟨_, _, rfl, rfl, changeShows_store rfl hr⟩
  | addi | slti | sltiu | xori | ori | andi | slli | srli | srai =>
    exact ⟨_, _, rfl, rfl, changeShows_aluImm rfl rfl hr⟩
  | add | sub | sll | slt | sltu | xor | srl | sra | or | and =>
    exact ⟨_, _, rfl, rfl, changeShows_aluReg rfl rfl hr⟩
  | halt => exact ⟨_, _, rfl, rfl, writeReg_setStatus s r v _ ▸ .carried nofun⟩
  | fence | fenceI | ecall | ebreak => exact ⟨_, _, rfl, rfl, changeShows_illegal rfl⟩

/-- Settles O29, by how the change shows in the next state. -/
theorem onlyTheSourceRegistersAreRead : Obligations.OnlyTheSourceRegistersAreRead := by
  intro i s r v hr
  obtain ⟨t, u, ht, hu, hshows⟩ := exec_changeShows i s v hr
  cases hshows with
  | overwritten hd ha => exact ⟨_, ht, fun hne => absurd hd hne, fun _ _ => hu, fun _ hna => absurd ha hna⟩
  | carried hna => exact ⟨_, ht, fun _ => hu, fun hd ha => absurd ha (hna hd), fun _ _ => hu⟩

end Sys2Proof.Machine

/-! PROOF. 20_memory.md: what a read and a write of the memory subsystem answer, a read after a write (R51 to R57), the copy
of the image at construction (R68, R272), the bytes an instruction can change (R55), and the fetch of a stored word (R66). -/

namespace Sys2Proof.Machine

/-! ## Reading part of what was written -/

theorem getElem_getBytes (m : Memory) (a n i : Nat) (h : i < (Memory.getBytes m a n).length) :
    (Memory.getBytes m a n)[i] = Memory.get m (a + i) := by
  induction n generalizing a i with
  | zero => exact absurd h (Nat.not_lt_zero i)
  | succ n ih =>
    cases i with
    | zero => rfl
    | succ i => exact (ih (a + 1) i _).trans (by rw [Nat.add_right_comm, Nat.add_assoc])

/-- The bytes read at an offset inside a written number are the little-endian bytes of the number shifted down by it. -/
theorem getBytes_setBytes_bytesLE (m : Memory) (a v : Nat) {k n N : Nat} (h : k + n ≤ N) :
    Memory.getBytes (Memory.setBytes m a (bytesLE N v)) (a + k) n = bytesLE n (v / 2 ^ (8 * k)) := by
  refine List.ext_getElem (by rw [getBytes_length, bytesLE_length]) fun i hi _ => ?_
  rw [getBytes_length] at hi
  have hki : k + i < (bytesLE N v).length := by rw [bytesLE_length]; omega
  rw [getElem_getBytes, Nat.add_assoc, get_setBytes_inside m a _ _ hki, bytesLE_getElem, bytesLE_getElem,
    Nat.div_div_eq_div_mul, ← Nat.pow_add, ← Nat.mul_add]

/-- A read after a change of memory is checked as before and assembles the new bytes. -/
theorem memRead_setMem {s : State} {addr : Word} {width : Width} (hok : AccessOk s.cfg addr width.bytes) (m : Memory)
    (access : AccessKind) (instr : Option Word) :
    (s.setMem m).memRead addr width access instr =
      .ok (BitVec.ofNat 32 (valueLE (Memory.getBytes m addr.toNat width.bytes))) :=
  memRead_ok (s := s.setMem m) hok access instr

/-- A read at an offset inside a written value answers the value's bits from that offset up, in the width of the read. -/
theorem memRead_stored (s : State) {a k : Nat} {addr : Word} {width stored : Width} (v : Word) (access : AccessKind)
    (instr : Option Word) (hok : AccessOk s.cfg addr width.bytes) (haddr : addr.toNat = a + k)
    (hk : k + width.bytes ≤ stored.bytes) :
    (s.setMem (Memory.setBytes s.mem a (bytesLE stored.bytes v.toNat))).memRead addr width access instr =
      .ok (BitVec.ofNat 32 (v.toNat / 2 ^ (8 * k) % 2 ^ (8 * width.bytes))) := by
  rw [memRead_setMem hok, haddr, getBytes_setBytes_bytesLE _ _ _ hk, valueLE_bytesLE]

/-- A read of the same width at the same address answers the low bits written (R57). -/
theorem memRead_stored_same (s : State) {addr : Word} {width : Width} (v : Word) (access : AccessKind)
    (instr : Option Word) (hok : AccessOk s.cfg addr width.bytes) :
    (s.setMem (Memory.setBytes s.mem addr.toNat (bytesLE width.bytes v.toNat))).memRead addr width access instr =
      .ok (BitVec.ofNat 32 (v.toNat % 2 ^ (8 * width.bytes))) := by
  rw [memRead_stored s v access instr hok (Nat.add_zero _).symm (Nat.zero_add _).le, Nat.mul_zero, Nat.pow_zero,
    Nat.div_one]

/-! ## The contracts of the memory subsystem -/

/-- Settles O5, case by case of the access; what is read fits a word, so that the word's value is the sum itself. -/
theorem memReadContract : Obligations.MemReadContract := by
  refine fun s addr width access instr => ⟨fun h => ?_, fun h => ?_, fun h => ?_⟩
  · exact ⟨_, memRead_misaligned h access instr, _, _, _, rfl⟩
  · exact ⟨_, memRead_pastEnd h access instr, _, _, _, rfl⟩
  · refine ⟨_, memRead_ok h access instr, ?_⟩
    rw [BitVec.toNat_ofNat, Nat.mod_eq_of_lt (valueLE_getBytes_lt _ _ _), valueLE_getBytes]

/-- Settles O6, case by case of the access. -/
theorem memWriteContract : Obligations.MemWriteContract := by
  refine fun s addr width v instr => ⟨fun h => ?_, fun h => ?_, fun h => ?_⟩
  · exact ⟨_, memWrite_misaligned h v instr, _, _, _, rfl⟩
  · exact ⟨_, memWrite_pastEnd h v instr, _, _, _, rfl⟩
  · refine ⟨_, memWrite_ok h v instr, ?_⟩
    rw [← bytesLE_eq_ofFn]
    exact bytesStored_setBytes s _ _

/-- Settles O7, by reading back the bytes written. -/
theorem memoryRoundTrip : Obligations.MemoryRoundTrip :=
  fun s _ _ v access instr instr' hok => ⟨_, memWrite_ok hok v instr, memRead_stored_same s v access instr' hok⟩

/-! ## Byte order -/

/-- Below the capacity an address and an offset add without wrapping (R6). -/
theorem toNat_add_offset {c : Config} {addr : Word} {k n : Nat} (hc : c.wf) (h : addr.toNat + n ≤ c.capacity)
    (hk : k < n) : (addr + BitVec.ofNat 32 k).toNat = addr.toNat + k := by
  have hcap : c.capacity ≤ 2 ^ 32 := hc
  rw [BitVec.toNat_add, BitVec.toNat_ofNat, Nat.add_mod_mod, Nat.mod_eq_of_lt (by omega)]

/-- Inside a word that may be accessed, a part at a multiple of its own width may be accessed too. -/
theorem accessOk_inside_word {c : Config} {addr part : Word} {width : Width} {k : Nat} (h : AccessOk c addr 4)
    (hpart : part.toNat = addr.toNat + k) (hk : k + width.bytes ≤ 4) (halign : width.bytes ∣ k) :
    AccessOk c part width.bytes := by
  obtain ⟨hword, hend⟩ := h
  refine ⟨fun hs => ?_, by omega⟩
  have hwidth : width.bytes ∣ 4 := by cases width <;> decide
  rw [hpart]
  exact Nat.mod_eq_zero_of_dvd ((hwidth.trans (Nat.dvd_of_mod_eq_zero (hword hs))).add halign)

/-- A narrower aligned read inside a stored word answers the word's bits at that place (R56). -/
theorem memRead_inside_word {s t : State} {addr v : Word} {instr : Option Word} {width : Width} (k : Nat)
    (hc : s.cfg.wf) (h : s.memWrite addr .word v instr = .ok t) (hk : k + width.bytes ≤ 4) (halign : width.bytes ∣ k)
    (access : AccessKind) (instr' : Option Word) :
    t.memRead (addr + BitVec.ofNat 32 k) width access instr' =
      .ok ((v.extractLsb' (8 * k) (8 * width.bytes)).setWidth 32) := by
  obtain ⟨hok, rfl⟩ := memWrite_eq_ok h
  have hpos : 0 < width.bytes := by cases width <;> decide
  have hpart := toNat_add_offset hc hok.2 (show k < 4 by omega)
  rw [memRead_stored (stored := .word) s v access instr' (accessOk_inside_word hok hpart hk halign) hpart hk,
    ← Nat.shiftRight_eq_div_pow, ← BitVec.extractLsb'_toNat, BitVec.ofNat_toNat]

/-- Settles O8, by the six places of a byte or a halfword in a word. -/
theorem byteOrderIsLittleEndian : Obligations.ByteOrderIsLittleEndian := by
  intro s t addr v access instr instr' hc h
  have hread {width : Width} (k : Nat) (hk : k + width.bytes ≤ 4) (halign : width.bytes ∣ k) :=
    memRead_inside_word k hc h hk halign access instr'
  have hbyte := hread (width := .byte) 0 (by decide) (by decide)
  have hhalf := hread (width := .half) 0 (by decide) (by decide)
  rw [BitVec.add_zero] at hbyte hhalf
  exact ⟨hbyte, hread 1 (by decide) (by decide), hread 2 (by decide) (by decide), hread 3 (by decide) (by decide),
    hhalf, hread 2 (by decide) (by decide)⟩

/-! ## Construction -/

theorem construct_tooLong {c : Config} {image : List Byte} (h : c.capacity < c.startOffset.toNat + image.length) :
    construct c (some image) = .error .loadFailure := by
  unfold construct
  exact if_pos h

theorem construct_fits {c : Config} {image : List Byte} (h : c.startOffset.toNat + image.length ≤ c.capacity) :
    construct c (some image) = .ok (State.initial c (Memory.setBytes [] c.startOffset.toNat image)) := by
  unfold construct
  exact if_neg h.not_gt

/-- Settles O3: the image is written into the empty memory, which reads 0x00 everywhere. -/
theorem constructionCopiesTheImageOrFails : Obligations.ConstructionCopiesTheImageOrFails := by
  refine fun c => ⟨rfl, fun image => ⟨construct_tooLong, fun hfits => ⟨_, construct_fits hfits, ?_, ?_⟩⟩⟩
  · exact get_setBytes_inside [] c.startOffset.toNat image
  · exact get_setBytes_outside [] c.startOffset.toNat image

/-! ## Memory under an instruction -/

/-- Settles O30, by the shape of the next state: only a store that passes its checks changes memory. -/
theorem onlyStoresChangeMemoryWithinTheirRange : Obligations.OnlyStoresChangeMemoryWithinTheirRange := by
  intro i s t a h hout
  cases effect_of_exec h with
  | write => rw [writeReg_mem]
  | jal => rw [setPcNext_mem, writeReg_mem]
  | jalr => rw [setPcNext_mem, writeReg_mem]
  | stored addr width v _ hrange =>
    refine get_setBytes_outside s.mem addr.toNat _ a ?_
    rw [bytesLE_length]
    exact hout _ _ hrange
  | _ => rfl

/-- A store that leaves the machine running has passed its checks and written its bytes. -/
theorem storeFrom_running {s : State} {w : Word} {width : Width} {rs1 rs2 : RegIdx} {imm : Word}
    (h : (s.storeFrom w width rs1 rs2 imm).status = .running) :
    AccessOk s.cfg (s.effAddr rs1 imm) width.bytes ∧
      s.storeFrom w width rs1 rs2 imm = s.setMem (Memory.setBytes s.mem (s.effAddr rs1 imm).toNat
        (bytesLE width.bytes (s.readReg rs2).toNat)) := by
  obtain hok | ⟨-, he⟩ | ⟨-, he⟩ := storeFrom_cases s w width rs1 rs2 imm
  · exact hok
  · rw [he] at h; cases h
  · rw [he] at h; cases h

/-- Settles O40: the next fetch is a read of the stored word in the advanced state. -/
theorem storeIsSeenByTheNextFetch : Obligations.StoreIsSeenByTheNextFetch := by
  intro s t rs1 rs2 imm _ h hrun haddr
  have ht : s.storeFrom (encode (.sw rs1 rs2 imm)) .word rs1 rs2 imm = t := by cases h; rfl
  rw [← ht] at hrun ⊢
  obtain ⟨hok, hstored⟩ := storeFrom_running hrun
  rw [haddr] at hok hstored
  have hlt : (s.readReg rs2).toNat < 2 ^ (8 * Width.word.bytes) := (s.readReg rs2).isLt
  rw [hstored]
  refine (memRead_stored_same s.advance (s.readReg rs2) .fetch none hok).trans ?_
  rw [Nat.mod_eq_of_lt hlt, BitVec.ofNat_toNat, BitVec.setWidth_eq]

end Sys2Proof.Machine

/-! PROOF. 30_encoding.md: decoding an encoded instruction gives it back (R81 to R99), and a decoded word is its instruction's
word in every bit that is not ignored (R96, R97). -/

namespace Sys2Proof.Machine

/-! ## The dispatcher and the generator, class by class -/

/-- The dispatcher's answer for a word of a class (R106). -/
def dispatchIn (w : Word) : OpClass → Except DecodeReject Instr
  | .lui => .ok (.lui (fieldRd w) (immU w))
  | .auipc => .ok (.auipc (fieldRd w) (immU w))
  | .jal => .ok (.jal (fieldRd w) (immJ w))
  | .jalr =>
    if fieldFunct3 w = 0b000#3 then .ok (.jalr (fieldRd w) (fieldRs1 w) (immI w))
    else .error (.noHandlerForFunct3 .jalr (fieldFunct3 w))
  | .branch => dispatchBranch w
  | .load => dispatchLoad w
  | .store => dispatchStore w
  | .opImm => dispatchOpImm w
  | .op => dispatchOp w

theorem dispatch_of_class {w : Word} {c : OpClass} (h : fieldOpcode w = c.code) : dispatch w = dispatchIn w c := by
  unfold dispatch
  rw [h, opClass_code]
  cases c <;> rfl

theorem decode_in_class {w : Word} {c : OpClass} (h : fieldOpcode w = c.code) : decode w = dispatchIn w c :=
  (decode_of_class h).trans (dispatch_of_class h)

/-- A non-zero word of no class goes to the rows without a handler (R231 to R233). -/
theorem decode_of_no_class {w : Word} (hw : w ≠ 0#32) (h : opClass (fieldOpcode w) = none) :
    decode w = dispatchNoClass w := by
  unfold decode dispatch
  rw [if_neg hw, h]

theorem decode_of_miscMem {w : Word} (h : fieldOpcode w = opcodeMiscMem) : decode w = dispatchNoClass w := by
  refine decode_of_no_class ?_ (by rw [h]; rfl)
  rintro rfl
  exact absurd h (by decide)

/-! ## The immediates of encoded words are the operands -/

/-- A word in the signed range of `n` bits is the sign extension of its low `n` bits. -/
theorem signExtend_low {x : Word} {n : Nat} (hn : n ≤ 32) (h1 : -(2 ^ n : Nat) ≤ signed x * 2)
    (h2 : signed x * 2 < (2 ^ n : Nat)) : (x.extractLsb' 0 n).signExtend 32 = x := by
  have hlow : x.extractLsb' 0 n = x.signExtend n := by
    rw [BitVec.signExtend_eq_setWidth_of_le x hn, BitVec.setWidth_eq_extractLsb' hn]
  apply BitVec.eq_of_toInt_eq
  calc ((x.extractLsb' 0 n).signExtend 32).toInt
      = (x.signExtend n).toInt := by rw [BitVec.toInt_signExtend_of_le hn, hlow]
    _ = x.toInt.bmod (2 ^ n) := BitVec.toInt_signExtend_eq_toInt_bmod_of_le x hn
    _ = x.toInt := Int.bmod_eq_of_le_mul_two h1 h2

/-- The low bits of a multiple of `2 ^ n` are zero. -/
theorem extract_low_eq_zero {x : Word} {n : Nat} (h : x.toNat % 2 ^ n = 0) : x.extractLsb' 0 n = 0#n :=
  BitVec.eq_of_toNat_eq (by simpa using h)

section operands
variable {imm : Word} (rs2 rs1 rd : RegIdx) (f3 : BitVec 3) (cls : OpClass)

theorem immU_encodeU_of_ok (h : immUOk imm = true) : immU (encodeU imm rd cls) = imm := by
  have hz : imm.extractLsb' 0 12 = 0#12 := extract_low_eq_zero (of_decide_eq_true h)
  have hall : imm.extractLsb' 12 20 ++ imm.extractLsb' 0 12 = imm.extractLsb' 0 32 := append_fields imm 0 20 12
  rw [immU_encodeU, ← hz, hall, extract_all]

theorem signExtend_low_of_immIOk (h : immIOk imm = true) : (imm.extractLsb' 0 12).signExtend 32 = imm := by
  simp only [immIOk, Bool.and_eq_true, decide_eq_true_eq] at h
  exact signExtend_low (by omega) (by omega) (by omega)

theorem immI_encodeI_of_ok (h : immIOk imm = true) : immI (encodeI imm rs1 f3 rd cls) = imm :=
  (immI_encodeI ..).trans (signExtend_low_of_immIOk h)

theorem immS_encodeS_of_ok (h : immIOk imm = true) : immS (encodeS imm rs2 rs1 f3) = imm := by
  have hall : imm.extractLsb' 5 7 ++ imm.extractLsb' 0 5 = imm.extractLsb' 0 12 := append_fields imm 0 7 5
  rw [immS_encodeS, hall, signExtend_low_of_immIOk h]

theorem immB_encodeB_of_ok (h : immBOk imm = true) : immB (encodeB imm rs2 rs1 f3) = imm := by
  simp only [immBOk, Bool.and_eq_true, decide_eq_true_eq] at h
  obtain ⟨⟨hlo, hhi⟩, heven⟩ := h
  have hz : imm.extractLsb' 0 1 = 0#1 := extract_low_eq_zero heven
  have g1 : imm.extractLsb' 12 1 ++ imm.extractLsb' 11 1 = imm.extractLsb' 11 2 := append_fields imm 11 1 1
  have g2 : imm.extractLsb' 11 2 ++ imm.extractLsb' 5 6 = imm.extractLsb' 5 8 := append_fields imm 5 2 6
  have g3 : imm.extractLsb' 5 8 ++ imm.extractLsb' 1 4 = imm.extractLsb' 1 12 := append_fields imm 1 8 4
  have g4 : imm.extractLsb' 1 12 ++ imm.extractLsb' 0 1 = imm.extractLsb' 0 13 := append_fields imm 0 12 1
  rw [immB_encodeB, ← hz, g1, g2, g3, g4, signExtend_low (by omega) (by omega) (by omega)]

theorem immJ_encodeJ_of_ok (h : immJOk imm = true) : immJ (encodeJ imm rd) = imm := by
  simp only [immJOk, Bool.and_eq_true, decide_eq_true_eq] at h
  obtain ⟨⟨hlo, hhi⟩, heven⟩ := h
  have hz : imm.extractLsb' 0 1 = 0#1 := extract_low_eq_zero heven
  have g1 : imm.extractLsb' 20 1 ++ imm.extractLsb' 12 8 = imm.extractLsb' 12 9 := append_fields imm 12 1 8
  have g2 : imm.extractLsb' 12 9 ++ imm.extractLsb' 11 1 = imm.extractLsb' 11 10 := append_fields imm 11 9 1
  have g3 : imm.extractLsb' 11 10 ++ imm.extractLsb' 1 10 = imm.extractLsb' 1 20 := append_fields imm 1 10 10
  have g4 : imm.extractLsb' 1 20 ++ imm.extractLsb' 0 1 = imm.extractLsb' 0 21 := append_fields imm 0 20 1
  rw [immJ_encodeJ, ← hz, g1, g2, g3, g4, signExtend_low (by omega) (by omega) (by omega)]

end operands

theorem encodeOpen_high (hi : BitVec 17) (f3 : BitVec 3) (lo : BitVec 5) (op : BitVec 7) :
    (encodeOpen hi f3 lo op).extractLsb' 15 17 = hi := by
  refine (append_high (hi ++ f3 ++ lo) op (5 + 3) 17).trans ?_
  refine (append_high (hi ++ f3) lo 3 17).trans ?_
  exact (append_high hi f3 0 17).trans (extract_all hi)

theorem encodeOpen_low (hi : BitVec 17) (f3 : BitVec 3) (lo : BitVec 5) (op : BitVec 7) :
    (encodeOpen hi f3 lo op).extractLsb' 7 5 = lo :=
  append_part1 (hi ++ f3) lo op

/-! ## Decoding an encoded instruction -/

section formats
variable (f7 : BitVec 7) (rs2 rs1 rd : RegIdx) (f3 : BitVec 3) (shamt : BitVec 5) (imm : Word) (cls : OpClass)

@[simp] theorem decode_encodeR : decode (encodeR f7 rs2 rs1 f3 rd cls) = dispatchIn (encodeR f7 rs2 rs1 f3 rd cls) cls :=
  decode_in_class (encodeR_opcode ..)
@[simp] theorem decode_encodeShift :
    decode (encodeShift f7 shamt rs1 f3 rd) = dispatchOpImm (encodeShift f7 shamt rs1 f3 rd) :=
  decode_in_class (encodeShift_opcode ..)
@[simp] theorem decode_encodeI : decode (encodeI imm rs1 f3 rd cls) = dispatchIn (encodeI imm rs1 f3 rd cls) cls :=
  decode_in_class (encodeI_opcode ..)
@[simp] theorem decode_encodeS : decode (encodeS imm rs2 rs1 f3) = dispatchStore (encodeS imm rs2 rs1 f3) :=
  decode_in_class (encodeS_opcode ..)
@[simp] theorem decode_encodeB : decode (encodeB imm rs2 rs1 f3) = dispatchBranch (encodeB imm rs2 rs1 f3) :=
  decode_in_class (encodeB_opcode ..)
@[simp] theorem decode_encodeU : decode (encodeU imm rd cls) = dispatchIn (encodeU imm rd cls) cls :=
  decode_in_class (encodeU_opcode ..)
@[simp] theorem decode_encodeJ : decode (encodeJ imm rd) = .ok (.jal rd (immJ (encodeJ imm rd))) := by
  rw [decode_in_class (encodeJ_opcode ..), dispatchIn, encodeJ_rd]
@[simp] theorem decode_encodeOpen_miscMem (hi : BitVec 17) (lo : BitVec 5) :
    decode (encodeOpen hi f3 lo opcodeMiscMem) = dispatchNoClass (encodeOpen hi f3 lo opcodeMiscMem) :=
  decode_of_miscMem (encodeOpen_opcode ..)

end formats

/-- Decoding the word of a well-formed instruction gives the instruction: the word's fields send the dispatcher to the
instruction's own row, and the operands are read back from the fields. -/
theorem decode_encode {i : Instr} (h : WellFormed i = true) : decode (encode i) = .ok i := by
  cases i with
  | lui | auipc => simp [encode, dispatchIn, immU_encodeU_of_ok _ _ h]
  | jal => simp [encode, immJ_encodeJ_of_ok _ h]
  | jalr => simp [encode, dispatchIn, immI_encodeI_of_ok _ _ _ _ h]
  | beq | bne | blt | bge | bltu | bgeu => simp [encode, dispatchBranch, immB_encodeB_of_ok _ _ _ h]
  | lb | lh | lw | lbu | lhu => simp [encode, dispatchIn, dispatchLoad, immI_encodeI_of_ok _ _ _ _ h]
  | sb | sh | sw => simp [encode, dispatchStore, immS_encodeS_of_ok _ _ _ h]
  | addi | slti | sltiu | xori | ori | andi => simp [encode, dispatchIn, dispatchOpImm, immI_encodeI_of_ok _ _ _ _ h]
  | slli | srli | srai => simp [encode, dispatchOpImm]
  | add | sub | sll | slt | sltu | xor | srl | sra | or | and => simp [encode, dispatchIn, dispatchOp]
  | fence | fenceI => simp [encode, dispatchNoClass, encodeOpen_high, encodeOpen_low]
  | halt | ecall | ebreak => rfl

/-- Settles O48. -/
theorem decodeOfEncodeIsTheInstruction : Obligations.DecodeOfEncodeIsTheInstruction :=
  fun _ => decode_encode

/-- Settles O49: a decoded word stands for its instruction. -/
theorem decodedWordIsTheEncodingInItsKeptBits : Obligations.DecodedWordIsTheEncodingInItsKeptBits :=
  fun _ _ => standsFor_of_decode

/-- Settles O55: the six words are computed. -/
theorem writtenWordsDecode : Obligations.WrittenWordsDecode := by
  unfold Obligations.WrittenWordsDecode
  decide

end Sys2Proof.Machine

/-! PROOF. 30_encoding.md: the immediate generator by class and bit by bit (R85 to R92), and that a decoded instruction carries
what it gives. -/

namespace Sys2Proof.Machine

/-! ## The generator, class by class -/

/-- The generator's value for a word of a class (R83, R91, R92). -/
def immIn (w : Word) : OpClass → Option Word
  | .lui | .auipc => some (immU w)
  | .jal => some (immJ w)
  | .jalr | .load => some (immI w)
  | .branch => some (immB w)
  | .store => some (immS w)
  | .opImm => some (if isShiftFunct3 (fieldFunct3 w) then immShift w else immI w)
  | .op => none

theorem immGen_in_class {w : Word} {c : OpClass} (h : fieldOpcode w = c.code) : immGen w = immIn w c := by
  unfold immGen
  rw [h, opClass_code]
  cases c <;> rfl

/-- The generator's value for a word whose masked opcode is that of a class. -/
theorem immGen_of_mask {w v : Word} (c : OpClass) (hw : w &&& 0x7F#32 = v) (hv : v &&& 0x7F#32 = v := by rfl)
    (hc : fieldOpcode v = c.code := by rfl) : immGen w = immIn w c :=
  immGen_in_class (((mask_opcode hv).1 hw).trans hc)

/-- funct3 alone is compared. -/
theorem mask_funct3_alone {w v : Word} (hv : v &&& 0x7000#32 = v) :
    w &&& 0x7000#32 = v ↔ fieldFunct3 w = fieldFunct3 v := by
  constructor
  · rintro rfl
    exact (extract_and w 0x7000#32 12 3 (by decide)).symm
  · intro h
    refine and_eq_of_bits hv (fun k hk hm => ?_)
    have hlt : 12 ≤ k ∧ k < 15 := (by decide : ∀ k, k < 32 → (0x7000#32).getLsbD k = true → 12 ≤ k ∧ k < 15) k hk hm
    exact bit_of_extract h (by omega) (by omega)

theorem isShiftFunct3_iff (w : Word) :
    isShiftFunct3 (fieldFunct3 w) = true ↔ w &&& 0x7000#32 = 0x1000#32 ∨ w &&& 0x7000#32 = 0x5000#32 := by
  rw [mask_funct3_alone rfl, mask_funct3_alone rfl, isShiftFunct3, Bool.or_eq_true, beq_iff_eq, beq_iff_eq]
  rfl

/-- The classes of R86 to R91 and the immediate of each. -/
theorem immGen_by_class (w : Word) :
    (w &&& 0x7F#32 ∈ [0x37#32, 0x17#32] → immGen w = some (immU w)) ∧
    (w &&& 0x7F#32 = 0x6F#32 → immGen w = some (immJ w)) ∧
    (w &&& 0x7F#32 ∈ [0x67#32, 0x03#32] → immGen w = some (immI w)) ∧
    (w &&& 0x7F#32 = 0x63#32 → immGen w = some (immB w)) ∧
    (w &&& 0x7F#32 = 0x23#32 → immGen w = some (immS w)) ∧
    (w &&& 0x7F#32 = 0x13#32 → immGen w =
      some (if w &&& 0x7000#32 = 0x1000#32 ∨ w &&& 0x7000#32 = 0x5000#32 then immShift w else immI w)) := by
  refine ⟨fun h => ?_, immGen_of_mask .jal, fun h => ?_, immGen_of_mask .branch, immGen_of_mask .store, fun h => ?_⟩
  · obtain h | h := List.mem_pair.1 h
    · exact immGen_of_mask .lui h
    · exact immGen_of_mask .auipc h
  · obtain h | h := List.mem_pair.1 h
    · exact immGen_of_mask .jalr h
    · exact immGen_of_mask .load h
  · rw [immGen_of_mask .opImm h, immIn]
    simp only [isShiftFunct3_iff]

/-! ## The bits of each immediate

A bit of an immediate is found by its position in the appended fields, or is the field's sign bit above them; what is left is
arithmetic on the positions. -/

section bits
variable (w : Word) {k : Nat} (hk : k < 32)
include hk

theorem immU_bit : (immU w).getLsbD k = (if k < 12 then false else w.getLsbD k) := by
  have hm : (0xFFFFF000#32).getLsbD k = decide (12 ≤ k) :=
    (by decide : ∀ k, k < 32 → (0xFFFFF000#32).getLsbD k = decide (12 ≤ k)) k hk
  rw [immU_eq, BitVec.getLsbD_and, hm]
  grind

theorem immI_bit : (immI w).getLsbD k = (if k ≤ 10 then w.getLsbD (k + 20) else w.getLsbD 31) := by
  simp only [immI, BitVec.getLsbD_signExtend, BitVec.msb_eq_getLsbD_last, BitVec.getLsbD_extractLsb']
  grind

theorem immJ_bit : (immJ w).getLsbD k = (if k = 0 then false else if k ≤ 10 then w.getLsbD (k + 20)
    else if k = 11 then w.getLsbD 20 else if k ≤ 19 then w.getLsbD k else w.getLsbD 31) := by
  simp only [immJ, BitVec.getLsbD_signExtend, BitVec.msb_eq_getLsbD_last, BitVec.getLsbD_append, BitVec.getLsbD_extractLsb']
  grind

theorem immS_bit : (immS w).getLsbD k =
    (if k ≤ 4 then w.getLsbD (k + 7) else if k ≤ 11 then w.getLsbD (k + 20) else w.getLsbD 31) := by
  simp only [immS, BitVec.getLsbD_signExtend, BitVec.msb_eq_getLsbD_last, BitVec.getLsbD_append, BitVec.getLsbD_extractLsb']
  grind

theorem immB_bit : (immB w).getLsbD k = (if k = 0 then false else if k ≤ 4 then w.getLsbD (k + 7)
    else if k ≤ 10 then w.getLsbD (k + 20) else if k = 11 then w.getLsbD 7 else w.getLsbD 31) := by
  simp only [immB, BitVec.getLsbD_signExtend, BitVec.msb_eq_getLsbD_last, BitVec.getLsbD_append, BitVec.getLsbD_extractLsb']
  grind

theorem immShift_bit : (immShift w).getLsbD k = (if k ≤ 4 then w.getLsbD (k + 20) else false) := by
  simp only [immShift, fieldShamt, BitVec.getLsbD_setWidth, BitVec.getLsbD_extractLsb']
  grind

end bits

/-- Settles O53, from the mask of each class and the bits of each immediate. -/
theorem immediateBits : Obligations.ImmediateBits :=
  ⟨immGen_by_class, fun w _ hk =>
    ⟨immU_bit w hk, immI_bit w hk, immJ_bit w hk, immS_bit w hk, immB_bit w hk, immShift_bit w hk⟩⟩

/-! ## The immediate of a decoded instruction -/

section decoded
variable {w : Word} {i : Instr}

theorem immediate_of_dispatchBranch (h : dispatchBranch w = .ok i) : immediate i = some (immB w) := by
  unfold dispatchBranch at h
  split at h <;> cases h <;> rfl

theorem immediate_of_dispatchLoad (h : dispatchLoad w = .ok i) : immediate i = some (immI w) := by
  unfold dispatchLoad at h
  split at h <;> cases h <;> rfl

theorem immediate_of_dispatchStore (h : dispatchStore w = .ok i) : immediate i = some (immS w) := by
  unfold dispatchStore at h
  split at h <;> cases h <;> rfl

theorem immediate_of_dispatchOpImm (h : dispatchOpImm w = .ok i) :
    immediate i = some (if isShiftFunct3 (fieldFunct3 w) then immShift w else immI w) := by
  unfold dispatchOpImm at h
  split at h
  case h_8 n0 n1 n2 n3 n4 n6 n7 =>
    rw [funct3_last n0 n1 n2 n3 n4 n6 n7]
    split at h <;> cases h <;> rfl
  all_goals
    rw [funct3_of_toNat (by assumption)]
    cases h
    rfl

theorem immediate_of_dispatchOp (h : dispatchOp w = .ok i) : immediate i = none := by
  unfold dispatchOp at h
  split at h
  case h_1 | h_8 => split at h <;> cases h <;> rfl
  all_goals cases h; rfl

/-- What a class's dispatch answers carries the generator's value for the class. -/
theorem immediate_of_dispatchIn {c : OpClass} (h : dispatchIn w c = .ok i) : immediate i = immIn w c := by
  cases c with
  | lui | auipc | jal => cases h; rfl
  | jalr =>
    rw [dispatchIn] at h
    split at h <;> cases h
    rfl
  | branch => exact immediate_of_dispatchBranch h
  | load => exact immediate_of_dispatchLoad h
  | store => exact immediate_of_dispatchStore h
  | opImm => exact immediate_of_dispatchOpImm h
  | op => exact immediate_of_dispatchOp h

theorem no_handler_of_dispatchNoClass (h : dispatchNoClass w = .ok i) : i.hasHandler = false := by
  unfold dispatchNoClass at h
  split_ifs at h <;> cases h <;> rfl

/-- A decoded word is the zero word, a word of a class, or a word of no class. -/
theorem decode_ok_cases (h : decode w = .ok i) :
    (w = 0#32 ∧ i = .halt) ∨ (∃ c, fieldOpcode w = OpClass.code c ∧ dispatchIn w c = .ok i) ∨ dispatchNoClass w = .ok i := by
  by_cases hw : w = 0#32
  · subst hw
    cases h
    exact .inl ⟨rfl, rfl⟩
  cases hc : opClass (fieldOpcode w) with
  | some c => exact .inr (.inl ⟨c, opClass_eq_some hc, decode_in_class (opClass_eq_some hc) ▸ h⟩)
  | none => exact .inr (.inr (decode_of_no_class hw hc ▸ h))

end decoded

/-- Settles O54, by what the decoder answers: HALT, an instruction of a class, or one without a handler. -/
theorem decoderUsesTheImmediateGenerator : Obligations.DecoderUsesTheImmediateGenerator := by
  intro w i h hh
  obtain ⟨rfl, rfl⟩ | ⟨c, hc, hd⟩ | hd := decode_ok_cases h
  · rfl
  · rw [immGen_in_class hc, immediate_of_dispatchIn hd]
  · cases (no_handler_of_dispatchNoClass hd).symm.trans hh

end Sys2Proof.Machine

/-! PROOF. 30_encoding.md: the words without a handler, by their fields (R93 to R100). -/

namespace Sys2Proof.Machine

/-! ## Which words of a class have a handler -/

/-- The funct3 and funct7 values that have no handler in a class (R94, R95, R98). -/
def noHandlerIn (f3 : BitVec 3) (f7 : BitVec 7) : OpClass → Prop
  | .lui | .auipc | .jal => False
  | .jalr => f3 ≠ 0#3
  | .branch => f3 ∈ [2#3, 3#3]
  | .load => f3 ∈ [3#3, 6#3, 7#3]
  | .store => f3 ∉ [0#3, 1#3, 2#3]
  | .opImm => f3 = 5#3 ∧ f7 ∉ [0x00#7, 0x20#7]
  | .op => f3 ∈ [0#3, 5#3] ∧ f7 ∉ [0x00#7, 0x20#7]

theorem funct3_cases (f3 : BitVec 3) :
    f3 = 0#3 ∨ f3 = 1#3 ∨ f3 = 2#3 ∨ f3 = 3#3 ∨ f3 = 4#3 ∨ f3 = 5#3 ∨ f3 = 6#3 ∨ f3 = 7#3 := by
  revert f3; decide

theorem mem_funct7_pair (f7 : BitVec 7) : f7 ∈ [0x00#7, 0x20#7] ↔ f7.toNat = 0x00 ∨ f7.toNat = 0x20 := by
  rw [List.mem_pair, ← BitVec.toNat_inj, ← BitVec.toNat_inj]
  rfl

section perClass
variable (w : Word)

theorem dispatchBranch_isOk : (dispatchBranch w).isOk = false ↔ fieldFunct3 w ∈ [2#3, 3#3] := by
  rcases funct3_cases (fieldFunct3 w) with h | h | h | h | h | h | h | h <;>
    simp [dispatchBranch, h, Except.toBool]

theorem dispatchLoad_isOk : (dispatchLoad w).isOk = false ↔ fieldFunct3 w ∈ [3#3, 6#3, 7#3] := by
  rcases funct3_cases (fieldFunct3 w) with h | h | h | h | h | h | h | h <;>
    simp [dispatchLoad, h, Except.toBool]

theorem dispatchStore_isOk : (dispatchStore w).isOk = false ↔ fieldFunct3 w ∉ [0#3, 1#3, 2#3] := by
  rcases funct3_cases (fieldFunct3 w) with h | h | h | h | h | h | h | h <;>
    simp [dispatchStore, h, Except.toBool]

/-- The funct7 level of OP-IMM (R95) is reached at funct3 `101` alone. -/
theorem dispatchOpImm_isOk :
    (dispatchOpImm w).isOk = false ↔ fieldFunct3 w = 5#3 ∧ fieldFunct7 w ∉ [0x00#7, 0x20#7] := by
  unfold dispatchOpImm
  rw [mem_funct7_pair]
  split
  case h_8 n0 n1 n2 n3 n4 n6 n7 =>
    rw [funct3_last n0 n1 n2 n3 n4 n6 n7]
    split <;> simp_all [Except.toBool]
  all_goals simp [funct3_of_toNat (by assumption), Except.toBool]

/-- The funct7 level of OP (R95) is reached at funct3 `000` and `101`. -/
theorem dispatchOp_isOk :
    (dispatchOp w).isOk = false ↔ fieldFunct3 w ∈ [0#3, 5#3] ∧ fieldFunct7 w ∉ [0x00#7, 0x20#7] := by
  unfold dispatchOp
  rw [mem_funct7_pair]
  split
  case h_1 h =>
    rw [funct3_of_toNat h]
    split <;> simp_all [Except.toBool]
  case h_8 n0 n1 n2 n3 n4 n6 n7 =>
    rw [funct3_last n0 n1 n2 n3 n4 n6 n7]
    split <;> simp_all [Except.toBool]
  all_goals simp [funct3_of_toNat (by assumption), Except.toBool]

theorem dispatchIn_isOk (c : OpClass) :
    (dispatchIn w c).isOk = false ↔ noHandlerIn (fieldFunct3 w) (fieldFunct7 w) c := by
  cases c with
  | lui | auipc | jal => simp [dispatchIn, noHandlerIn, Except.toBool]
  | jalr => rw [dispatchIn, noHandlerIn]; split <;> simp_all [Except.toBool]
  | branch => exact dispatchBranch_isOk w
  | load => exact dispatchLoad_isOk w
  | store => exact dispatchStore_isOk w
  | opImm => exact dispatchOpImm_isOk w
  | op => exact dispatchOp_isOk w

end perClass

/-! ## Which words have a handler -/

/-- The opcode of an instruction without a handler is of no class (R231, R232). -/
theorem no_class_of_no_handler {i : Instr} (h : i.hasHandler = false) : opClass (fieldOpcode (encode i)) = none := by
  cases i with
  | fence | fenceI => rw [encode, encodeOpen_opcode]; rfl
  | ecall | ebreak => rfl
  | _ => cases h

/-- A word of a class that decodes has a handler. -/
theorem hasHandler_of_class {w : Word} {i : Instr} {c : OpClass} (h0 : fieldOpcode w = c.code) (h : decode w = .ok i) :
    i.hasHandler = true := by
  by_contra hh
  have hf : i.hasHandler = false := Bool.eq_false_of_not_eq_true hh
  have hn := no_class_of_no_handler hf
  rw [(standsFor_of_decode h).encode_eq (keptBits_of_no_handler hf), h0, opClass_code] at hn
  cases hn

theorem hasHandler_in_class {w : Word} {c : OpClass} (h0 : fieldOpcode w = c.code) :
    hasHandler w = (dispatchIn w c).isOk := by
  rw [← decode_in_class h0]
  cases h : decode w with
  | ok i => exact (hasHandler_of_decode h).trans (hasHandler_of_class h0 h)
  | error r => exact hasHandler_of_reject h

theorem hasHandler_of_no_class {w : Word} (hw : w ≠ 0#32) (h : opClass (fieldOpcode w) = none) :
    hasHandler w = false := by
  have hd := decode_of_no_class hw h
  cases h' : dispatchNoClass w with
  | ok i => exact (hasHandler_of_decode (hd.trans h')).trans (no_handler_of_dispatchNoClass h')
  | error r => exact hasHandler_of_reject (hd.trans h')

/-- An opcode is of no class exactly when it is none of the nine values of R83. -/
theorem opClass_eq_none_iff (op : BitVec 7) :
    opClass op = none ↔ op ∉ [0x37#7, 0x17#7, 0x6F#7, 0x67#7, 0x63#7, 0x03#7, 0x23#7, 0x13#7, 0x33#7] := by
  revert op
  decide

/-- Settles O52: the zero word has a handler, a word of no class has none, and each class has its own list. -/
theorem illegalWordsAreExactlyThese : Obligations.IllegalWordsAreExactlyThese := by
  intro w
  by_cases hw : w = 0#32
  · subst hw
    decide
  cases hc : opClass (fieldOpcode w) with
  | none =>
    exact iff_of_true (hasHandler_of_no_class hw hc) ⟨hw, .inl ((opClass_eq_none_iff _).1 hc)⟩
  | some c =>
    have h0 : fieldOpcode w = c.code := opClass_eq_some hc
    have h0' : w.extractLsb' 0 7 = c.code := h0
    rw [hasHandler_in_class h0, dispatchIn_isOk, h0']
    cases c <;> simp [noHandlerIn, OpClass.code, hw, fieldFunct3, fieldFunct7]

end Sys2Proof.Machine

/-! PROOF. 30_encoding.md: the opcode table and the decision tree say the same (opening, R94 to R99, R106). A word that selects
a row decodes to the row's instruction, and a word that decodes selects a row. -/

namespace Sys2Proof.Machine

/-! ## A word that selects a row decodes to the row's instruction -/

section rows
variable {v : Word} {mk : Word → Instr}

theorem encodedAs_opcode_in (c : OpClass) (h : ∀ w, dispatchIn w c = .ok (mk w)) (hv : v &&& 0x7F#32 = v := by rfl)
    (hc : fieldOpcode v = c.code := by rfl) : EncodedAs 0x7F#32 v mk :=
  encodedAs_opcode hv hc fun w h0 => (dispatch_of_class h0).trans (h w)

theorem encodedAs_funct3_in (c : OpClass) (h : ∀ w, fieldFunct3 w = fieldFunct3 v → dispatchIn w c = .ok (mk w))
    (hv : v &&& 0x707F#32 = v := by rfl) (hc : fieldOpcode v = c.code := by rfl) : EncodedAs 0x707F#32 v mk :=
  encodedAs_funct3 hv hc fun w h0 h3 => (dispatch_of_class h0).trans (h w h3)

theorem encodedAs_funct7_in (c : OpClass)
    (h : ∀ w, fieldFunct3 w = fieldFunct3 v → fieldFunct7 w = fieldFunct7 v → dispatchIn w c = .ok (mk w))
    (hv : v &&& 0xFE00707F#32 = v := by rfl) (hc : fieldOpcode v = c.code := by rfl) : EncodedAs 0xFE00707F#32 v mk :=
  encodedAs_funct7 hv hc fun w h0 h3 h7 => (dispatch_of_class h0).trans (h w h3 h7)

/-- A row that is one word. -/
theorem encodedAs_word {i : Instr} (h : decode v = .ok i) : EncodedAs 0xFFFFFFFF#32 v (fun _ => i) := by
  intro w hw
  have hall : w &&& 0xFFFFFFFF#32 = w := BitVec.and_allOnes
  rw [← hall, hw, h]

end rows

theorem encodedAs_upper :
    EncodedAs 0x7F#32 0x37#32 (fun w => .lui (fieldRd w) (w &&& 0xFFFFF000#32)) ∧
    EncodedAs 0x7F#32 0x17#32 (fun w => .auipc (fieldRd w) (w &&& 0xFFFFF000#32)) :=
  ⟨encodedAs_opcode_in .lui fun w => by rw [dispatchIn, immU_eq],
    encodedAs_opcode_in .auipc fun w => by rw [dispatchIn, immU_eq]⟩

theorem encodedAs_jumps :
    EncodedAs 0x7F#32 0x6F#32 (fun w => .jal (fieldRd w) (immJ w)) ∧
    EncodedAs 0x707F#32 0x67#32 (fun w => .jalr (fieldRd w) (fieldRs1 w) (immI w)) :=
  ⟨encodedAs_opcode_in .jal fun _ => rfl, encodedAs_funct3_in .jalr fun _ h => if_pos h⟩

theorem encodedAs_branch :
    EncodedAs 0x707F#32 0x0063#32 (fun w => .beq (fieldRs1 w) (fieldRs2 w) (immB w)) ∧
    EncodedAs 0x707F#32 0x1063#32 (fun w => .bne (fieldRs1 w) (fieldRs2 w) (immB w)) ∧
    EncodedAs 0x707F#32 0x4063#32 (fun w => .blt (fieldRs1 w) (fieldRs2 w) (immB w)) ∧
    EncodedAs 0x707F#32 0x5063#32 (fun w => .bge (fieldRs1 w) (fieldRs2 w) (immB w)) ∧
    EncodedAs 0x707F#32 0x6063#32 (fun w => .bltu (fieldRs1 w) (fieldRs2 w) (immB w)) ∧
    EncodedAs 0x707F#32 0x7063#32 (fun w => .bgeu (fieldRs1 w) (fieldRs2 w) (immB w)) := by
  refine ⟨?_, ?_, ?_, ?_, ?_, ?_⟩ <;>
    exact encodedAs_funct3_in .branch fun w h => by rw [dispatchIn, dispatchBranch, h]; rfl

theorem encodedAs_load :
    EncodedAs 0x707F#32 0x0003#32 (fun w => .lb (fieldRd w) (fieldRs1 w) (immI w)) ∧
    EncodedAs 0x707F#32 0x1003#32 (fun w => .lh (fieldRd w) (fieldRs1 w) (immI w)) ∧
    EncodedAs 0x707F#32 0x2003#32 (fun w => .lw (fieldRd w) (fieldRs1 w) (immI w)) ∧
    EncodedAs 0x707F#32 0x4003#32 (fun w => .lbu (fieldRd w) (fieldRs1 w) (immI w)) ∧
    EncodedAs 0x707F#32 0x5003#32 (fun w => .lhu (fieldRd w) (fieldRs1 w) (immI w)) := by
  refine ⟨?_, ?_, ?_, ?_, ?_⟩ <;>
    exact encodedAs_funct3_in .load fun w h => by rw [dispatchIn, dispatchLoad, h]; rfl

theorem encodedAs_store :
    EncodedAs 0x707F#32 0x0023#32 (fun w => .sb (fieldRs1 w) (fieldRs2 w) (immS w)) ∧
    EncodedAs 0x707F#32 0x1023#32 (fun w => .sh (fieldRs1 w) (fieldRs2 w) (immS w)) ∧
    EncodedAs 0x707F#32 0x2023#32 (fun w => .sw (fieldRs1 w) (fieldRs2 w) (immS w)) := by
  refine ⟨?_, ?_, ?_⟩ <;>
    exact encodedAs_funct3_in .store fun w h => by rw [dispatchIn, dispatchStore, h]; rfl

theorem encodedAs_opImm :
    EncodedAs 0x707F#32 0x0013#32 (fun w => .addi (fieldRd w) (fieldRs1 w) (immI w)) ∧
    EncodedAs 0x707F#32 0x2013#32 (fun w => .slti (fieldRd w) (fieldRs1 w) (immI w)) ∧
    EncodedAs 0x707F#32 0x3013#32 (fun w => .sltiu (fieldRd w) (fieldRs1 w) (immI w)) ∧
    EncodedAs 0x707F#32 0x4013#32 (fun w => .xori (fieldRd w) (fieldRs1 w) (immI w)) ∧
    EncodedAs 0x707F#32 0x6013#32 (fun w => .ori (fieldRd w) (fieldRs1 w) (immI w)) ∧
    EncodedAs 0x707F#32 0x7013#32 (fun w => .andi (fieldRd w) (fieldRs1 w) (immI w)) := by
  refine ⟨?_, ?_, ?_, ?_, ?_, ?_⟩ <;>
    exact encodedAs_funct3_in .opImm fun w h => by rw [dispatchIn, dispatchOpImm, h]; rfl

theorem encodedAs_shiftImm :
    EncodedAs 0x707F#32 0x1013#32 (fun w => .slli (fieldRd w) (fieldRs1 w) (fieldShamt w)) ∧
    EncodedAs 0xFE00707F#32 0x00005013#32 (fun w => .srli (fieldRd w) (fieldRs1 w) (fieldShamt w)) ∧
    EncodedAs 0xFE00707F#32 0x40005013#32 (fun w => .srai (fieldRd w) (fieldRs1 w) (fieldShamt w)) := by
  refine ⟨encodedAs_funct3_in .opImm fun w h => by rw [dispatchIn, dispatchOpImm, h]; rfl, ?_, ?_⟩ <;>
    exact encodedAs_funct7_in .opImm fun w h h7 => by rw [dispatchIn, dispatchOpImm, h, h7]; rfl

/-- The rows of OP that compare funct7 (R95). -/
theorem encodedAs_op_funct7 :
    EncodedAs 0xFE00707F#32 0x00000033#32 (fun w => .add (fieldRd w) (fieldRs1 w) (fieldRs2 w)) ∧
    EncodedAs 0xFE00707F#32 0x40000033#32 (fun w => .sub (fieldRd w) (fieldRs1 w) (fieldRs2 w)) ∧
    EncodedAs 0xFE00707F#32 0x00005033#32 (fun w => .srl (fieldRd w) (fieldRs1 w) (fieldRs2 w)) ∧
    EncodedAs 0xFE00707F#32 0x40005033#32 (fun w => .sra (fieldRd w) (fieldRs1 w) (fieldRs2 w)) := by
  refine ⟨?_, ?_, ?_, ?_⟩ <;>
    exact encodedAs_funct7_in .op fun w h h7 => by rw [dispatchIn, dispatchOp, h, h7]; rfl

/-- The rows of OP that ignore `w[31:25]` (R96). -/
theorem encodedAs_op_funct3 :
    EncodedAs 0x707F#32 0x1033#32 (fun w => .sll (fieldRd w) (fieldRs1 w) (fieldRs2 w)) ∧
    EncodedAs 0x707F#32 0x2033#32 (fun w => .slt (fieldRd w) (fieldRs1 w) (fieldRs2 w)) ∧
    EncodedAs 0x707F#32 0x3033#32 (fun w => .sltu (fieldRd w) (fieldRs1 w) (fieldRs2 w)) ∧
    EncodedAs 0x707F#32 0x4033#32 (fun w => .xor (fieldRd w) (fieldRs1 w) (fieldRs2 w)) ∧
    EncodedAs 0x707F#32 0x6033#32 (fun w => .or (fieldRd w) (fieldRs1 w) (fieldRs2 w)) ∧
    EncodedAs 0x707F#32 0x7033#32 (fun w => .and (fieldRd w) (fieldRs1 w) (fieldRs2 w)) := by
  refine ⟨?_, ?_, ?_, ?_, ?_, ?_⟩ <;>
    exact encodedAs_funct3_in .op fun w h => by rw [dispatchIn, dispatchOp, h]; rfl

/-- The rows without a handler (R231, R232). -/
theorem encodedAs_noHandler :
    EncodedAs 0x707F#32 0x000F#32 (fun w => .fence (w.extractLsb' 15 17) (w.extractLsb' 7 5)) ∧
    EncodedAs 0x707F#32 0x100F#32 (fun w => .fenceI (w.extractLsb' 15 17) (w.extractLsb' 7 5)) ∧
    EncodedAs 0xFFFFFFFF#32 0x00000073#32 (fun _ => .ecall) ∧ EncodedAs 0xFFFFFFFF#32 0x00100073#32 (fun _ => .ebreak) := by
  refine ⟨fun w hw => ?_, fun w hw => ?_, encodedAs_word rfl, encodedAs_word rfl⟩
  all_goals
    obtain ⟨h0, h3⟩ := (mask_funct3 rfl).1 hw
    rw [decode_of_miscMem h0, dispatchNoClass, h0, h3]
    rfl

/-- Every word that selects the row decodes to an instruction of the row's mnemonic. -/
def RowDecodes (r : TableRow) : Prop :=
  ∀ w : Word, w &&& r.mask = r.value → (decode w).toOption.map Instr.mnemonic = some r.mnemonic

theorem EncodedAs.row {mask v : Word} {mk : Word → Instr} {m : String} (h : EncodedAs mask v mk)
    (hm : ∀ w, (mk w).mnemonic = m := by intro; rfl) : RowDecodes ⟨m, mask, v⟩ := by
  intro w hw
  rw [h w hw, ← hm w]
  rfl

/-- Row by row, in the table's order. -/
theorem every_row_decodes : ∀ r ∈ opcodeTable, RowDecodes r := by
  obtain ⟨lui, auipc⟩ := encodedAs_upper
  obtain ⟨jal, jalr⟩ := encodedAs_jumps
  obtain ⟨beq, bne, blt, bge, bltu, bgeu⟩ := encodedAs_branch
  obtain ⟨lb, lh, lw, lbu, lhu⟩ := encodedAs_load
  obtain ⟨sb, sh, sw⟩ := encodedAs_store
  obtain ⟨addi, slti, sltiu, xori, ori, andi⟩ := encodedAs_opImm
  obtain ⟨slli, srli, srai⟩ := encodedAs_shiftImm
  obtain ⟨add, sub, srl, sra⟩ := encodedAs_op_funct7
  obtain ⟨sll, slt, sltu, xor, or, and⟩ := encodedAs_op_funct3
  obtain ⟨fence, fenceI, ecall, ebreak⟩ := encodedAs_noHandler
  have halt : EncodedAs 0xFFFFFFFF#32 0x00000000#32 (fun _ => .halt) := encodedAs_word rfl
  simp only [opcodeTable, executingRows, List.cons_append, List.nil_append, List.forall_mem_cons]
  exact ⟨halt.row, lui.row, auipc.row, jal.row, jalr.row, beq.row, bne.row, blt.row, bge.row, bltu.row, bgeu.row,
    lb.row, lh.row, lw.row, lbu.row, lhu.row, sb.row, sh.row, sw.row,
    addi.row, slti.row, sltiu.row, xori.row, ori.row, andi.row, slli.row, srli.row, srai.row,
    add.row, sub.row, sll.row, slt.row, sltu.row, xor.row, srl.row, sra.row, or.row, and.row,
    fence.row, fenceI.row, ecall.row, ebreak.row, List.forall_mem_nil _⟩

/-! ## A word that decodes selects a row -/

/-- The word of an instruction selects the row of the instruction's mnemonic. -/
theorem encode_selects_row (i : Instr) : Laws.InRow.Statement i := by
  cases i
  exacts [Laws.InRow.lui .., Laws.InRow.auipc .., Laws.InRow.jal .., Laws.InRow.jalr ..,
    Laws.InRow.beq .., Laws.InRow.bne .., Laws.InRow.blt .., Laws.InRow.bge .., Laws.InRow.bltu .., Laws.InRow.bgeu ..,
    Laws.InRow.lb .., Laws.InRow.lh .., Laws.InRow.lw .., Laws.InRow.lbu .., Laws.InRow.lhu ..,
    Laws.InRow.sb .., Laws.InRow.sh .., Laws.InRow.sw ..,
    Laws.InRow.addi .., Laws.InRow.slti .., Laws.InRow.sltiu .., Laws.InRow.xori .., Laws.InRow.ori .., Laws.InRow.andi ..,
    Laws.InRow.slli .., Laws.InRow.srli .., Laws.InRow.srai ..,
    Laws.InRow.add .., Laws.InRow.sub .., Laws.InRow.sll .., Laws.InRow.slt .., Laws.InRow.sltu .., Laws.InRow.xor ..,
    Laws.InRow.srl .., Laws.InRow.sra .., Laws.InRow.or .., Laws.InRow.and ..,
    Laws.InRow.halt, Laws.InRow.fence .., Laws.InRow.fenceI .., Laws.InRow.ecall, Laws.InRow.ebreak]

/-- The rows of the instructions that ignore `w[31:25]` do not compare it (R96, R97). -/
theorem mask_of_ignored_funct7 : ∀ m ∈ ["SLLI", "SLL", "SLT", "SLTU", "XOR", "OR", "AND"], ∀ r ∈ opcodeTable,
    r.mnemonic = m → 0x01FFFFFF#32 &&& r.mask = r.mask := by
  decide

/-- An instruction's row compares no bit that the decoder ignores. -/
theorem row_mask_kept {i : Instr} {r : TableRow} (hr : r ∈ opcodeTable) (hm : r.mnemonic = i.mnemonic) :
    keptBits i &&& r.mask = r.mask := by
  cases i with
  | slli | sll | slt | sltu | xor | or | and => exact mask_of_ignored_funct7 _ (by simp [Instr.mnemonic]) r hr hm
  | _ => exact BitVec.allOnes_and

/-- A decoded word selects a row: it agrees with its instruction's word in every bit the row compares. -/
theorem decoded_selects_row {w : Word} {i : Instr} (h : decode w = .ok i) :
    ∃ r ∈ opcodeTable, w &&& r.mask = r.value := by
  obtain ⟨r, hr, hm, he⟩ := encode_selects_row i
  obtain ⟨-, hw⟩ := standsFor_of_decode h
  refine ⟨r, hr, ?_⟩
  calc w &&& r.mask = (w &&& keptBits i) &&& r.mask := by rw [BitVec.and_assoc, row_mask_kept hr hm]
    _ = (encode i &&& keptBits i) &&& r.mask := by rw [hw]
    _ = encode i &&& r.mask := by rw [BitVec.and_assoc, row_mask_kept hr hm]
    _ = r.value := he

/-- Settles O50: the first row found decodes to its own mnemonic, and where none is found nothing decodes. -/
theorem decoderAgreesWithTheOpcodeTable : Obligations.DecoderAgreesWithTheOpcodeTable := by
  intro w
  cases hf : opcodeTable.find? (fun r => w &&& r.mask == r.value) with
  | some r =>
    have hsel := List.find?_some hf
    exact every_row_decodes r (List.mem_of_find?_eq_some hf) w (beq_iff_eq.1 hsel)
  | none =>
    cases hd : decode w with
    | error => rfl
    | ok i =>
      obtain ⟨r, hr, hw⟩ := decoded_selects_row hd
      exact absurd (beq_iff_eq.2 hw) (List.find?_eq_none.1 hf r hr)

end Sys2Proof.Machine

/-! PROOF. 40_fetch_dispatch_cycle.md: what a step is in each case of the cycle (R120 to R122, R129), and which instructions
override the advance of the pc pair (R124). -/

namespace Sys2Proof.Machine

/-! ## The pc pair under an instruction -/

/-- A branch is the row of its condition. -/
theorem mem_rows_of_branchOf {i : Instr} {c : BranchCond} {rs1 rs2 : RegIdx} {offset : Word}
    (h : branchOf i = some (c, rs1, rs2, offset)) :
    (c, i) ∈ [(.eq, .beq rs1 rs2 offset), (.ne, .bne rs1 rs2 offset), (.lt, .blt rs1 rs2 offset),
      (.ge, .bge rs1 rs2 offset), (.ltu, .bltu rs1 rs2 offset), (BranchCond.geu, .bgeu rs1 rs2 offset)] := by
  cases i with
  | beq | bne | blt | bge | bltu | bgeu => cases h; simp
  | _ => cases h

/-- Settles O31, by the shapes of the next state: only those of JAL, of JALR and of a taken branch set `pc_next`. -/
theorem onlyControlTransfersOverridePcNext : Obligations.OnlyControlTransfersOverridePcNext := by
  refine ⟨fun s => rfl, fun i s t h => ⟨exec_pc h, ?_⟩⟩
  cases effect_of_exec h with
  | write => exact .inl (writeReg_pcNext ..)
  | jal rd offset hi => exact .inr (.inl ⟨rd, offset, hi⟩)
  | jalr rd rs1 imm hi => exact .inr (.inr (.inl ⟨rd, rs1, imm, hi⟩))
  | taken c rs1 rs2 offset hi hc =>
    exact .inr (.inr (.inr ⟨c, rs1, rs2, offset, hc, rfl, mem_rows_of_branchOf hi⟩))
  | _ => exact .inl rfl

/-! ## A fetched word -/

/-- The zero word halts the machine (R122). -/
theorem runWord_zero (s : State) : s.runWord 0#32 = .next (s.setStatus (.halted .zeroWord)) :=
  runWord_ok (i := .halt) rfl

theorem exec_of_no_handler {i : Instr} (h : i.hasHandler = false) (s : State) :
    exec i s = .next (s.takeIllegal (encode i)) := by
  cases i with
  | fence | fenceI | ecall | ebreak => rfl
  | _ => cases h

/-- A word without a handler takes IllegalInstruction of that word, whether or not it is one of the table's rows (R244). -/
theorem runWord_of_no_handler {w : Word} (h : hasHandler w = false) (s : State) :
    s.runWord w = .next (s.takeIllegal w) := by
  cases hd : decode w with
  | error => exact runWord_error hd
  | ok i =>
    have hi : i.hasHandler = false := (hasHandler_of_decode hd).symm.trans h
    rw [runWord_ok hd, exec_of_no_handler hi, (standsFor_of_decode hd).encode_eq (keptBits_of_no_handler hi)]

theorem runWord_next (s : State) (w : Word) : ∃ t, s.runWord w = .next t := by
  cases hd : decode w with
  | error => exact ⟨_, runWord_error hd⟩
  | ok i =>
    obtain ⟨t, ht, -⟩ := exec_effect i s
    exact ⟨t, (runWord_ok hd).trans ht⟩

/-! ## A step, case by case -/

theorem step_of_sentinel {s : State} (hr : s.status = .running) (hs : s.pcNext >>> 1 = s.cfg.haltSentinel >>> 1) :
    step s = .next (s.setStatus (.halted .sentinelReached)) :=
  (step_running hr).trans (cycle_sentinel hs)

section pastSentinel
variable {s : State} (hr : s.status = .running) (hs : s.pcNext >>> 1 ≠ s.cfg.haltSentinel >>> 1)
include hr hs

theorem step_of_fetch_error {f : Fault} (hf : s.advance.fetch = .error f) : step s = .next (s.advance.takeFault f) := by
  rw [step_running hr, cycle_fetches hs, fetchAndRun_error hf]

theorem step_of_fetch_ok {w : Word} (hf : s.advance.fetch = .ok w) : step s = s.advance.runWord w := by
  rw [step_running hr, cycle_fetches hs, fetchAndRun_ok hf]

end pastSentinel

/-- Every step answers a next state (R246, log 4). -/
theorem step_next (s : State) : ∃ t, step s = .next t := by
  by_cases hr : s.status = .running
  · by_cases hs : s.pcNext >>> 1 = s.cfg.haltSentinel >>> 1
    · exact ⟨_, step_of_sentinel hr hs⟩
    · cases hf : s.advance.fetch with
      | error => exact ⟨_, step_of_fetch_error hr hs hf⟩
      | ok w => rw [step_of_fetch_ok hr hs hf]; exact runWord_next _ w
  · exact ⟨_, step_terminal hr⟩

/-- Settles O34, clause by clause: what the fetch answers is the contract of a read of width 4 in the advanced state. -/
theorem cycleFollowsTheSpec : Obligations.CycleFollowsTheSpec := by
  intro s hr
  rw [ne_eq, clear_bit0_eq_iff]
  refine ⟨step_of_sentinel hr, fun hs => ?_⟩
  obtain ⟨hmisaligned, hpastEnd, hok⟩ := memReadContract s.advance s.pcNext .word .fetch none
  refine ⟨fun h => ?_, fun h => ?_, fun h => ?_⟩
  · obtain ⟨f, hf, hcause⟩ := hmisaligned h
    exact ⟨f, hcause, step_of_fetch_error hr hs hf⟩
  · obtain ⟨f, hf, hcause⟩ := hpastEnd h
    exact ⟨f, hcause, step_of_fetch_error hr hs hf⟩
  · obtain ⟨w, hw, hvalue⟩ := hok h
    have hstep : step s = s.advance.runWord w := step_of_fetch_ok hr hs hw
    refine ⟨w, hvalue, ?_, fun _ hh => ⟨_, ⟨_, rfl⟩, hstep.trans (runWord_of_no_handler hh _)⟩,
      fun _ i hi => hstep.trans (runWord_ok hi)⟩
    rintro rfl
    exact hstep.trans (runWord_zero _)

/-- Settles O35: past the sentinel test no case of a step gives that cause. -/
theorem sentinelEndsTheRunBeforeAnyFetch : Obligations.SentinelEndsTheRunBeforeAnyFetch := by
  intro s hr
  obtain ⟨t, ht⟩ := step_next s
  refine ⟨t, ht, ?_⟩
  obtain ⟨hn, -⟩ | ⟨-, hs, rfl⟩ | ⟨-, hs, ⟨f, -, rfl⟩ | ⟨w, r, -, -, rfl⟩ | ⟨w, i, -, -, he⟩⟩ := step_cases ht
  · exact absurd hr hn
  · exact ⟨fun _ => statusOnly_setStatus s _, fun hne => absurd hs hne⟩
  · exact ⟨fun h => absurd h hs, nofun⟩
  · exact ⟨fun h => absurd h hs, nofun⟩
  · refine ⟨fun h => absurd h hs, fun _ => ?_⟩
    obtain hst | hst | ⟨f, hst⟩ := exec_status he
    · rw [hst, advance_status, hr]; exact nofun
    · rw [hst]; exact nofun
    · rw [hst]; exact nofun

/-- Settles O33: the fetch reads the four bytes as one word. -/
theorem stepRunsTheDecodedInstruction : Obligations.StepRunsTheDecodedInstruction := by
  rintro s w i hr hs hok rfl hd
  have hfetch := fetch_ok (s := s.advance) hok
  rw [word_getBytes_four] at hfetch
  exact (step_of_fetch_ok hr hs hfetch).trans (runWord_ok hd)

end Sys2Proof.Machine

/-! PROOF. 40_fetch_dispatch_cycle.md: the debug and extension toggles change no step (R127, R234). -/

namespace Sys2Proof.Machine

/-- The state with other debug and extension toggles (R127, R234). -/
def State.toggled (s : State) (debug m a f : Bool) : State := { s with cfg := s.cfg.withToggles debug m a f }

section toggled
variable (s : State) (debug m a f : Bool)

/-! ## The operations read no toggle -/

@[simp] theorem readReg_toggled (r : RegIdx) : (s.toggled debug m a f).readReg r = s.readReg r := rfl

@[simp] theorem effAddr_toggled (rs1 : RegIdx) (imm : Word) :
    (s.toggled debug m a f).effAddr rs1 imm = s.effAddr rs1 imm := rfl

@[simp] theorem checkAccess_toggled (addr : Word) (width : Width) (access : AccessKind) (instr : Option Word) :
    (s.toggled debug m a f).checkAccess addr width access instr = s.checkAccess addr width access instr := rfl

@[simp] theorem memRead_toggled (addr : Word) (width : Width) (access : AccessKind) (instr : Option Word) :
    (s.toggled debug m a f).memRead addr width access instr = s.memRead addr width access instr := rfl

theorem writeReg_toggled (r : RegIdx) (v : Word) :
    (s.toggled debug m a f).writeReg r v = (s.writeReg r v).toggled debug m a f := by
  unfold State.writeReg; split <;> rfl

theorem writeReg_setPcNext_toggled (r : RegIdx) (v target : Word) :
    ((s.toggled debug m a f).writeReg r v).setPcNext target =
      ((s.writeReg r v).setPcNext target).toggled debug m a f :=
  congrArg (·.setPcNext target) (writeReg_toggled ..)

theorem loadInto_toggled (w : Word) (width : Width) (extend : Word → Word) (rd rs1 : RegIdx) (imm : Word) :
    (s.toggled debug m a f).loadInto w width extend rd rs1 imm =
      (s.loadInto w width extend rd rs1 imm).toggled debug m a f := by
  unfold State.loadInto
  rw [effAddr_toggled, memRead_toggled]
  split
  · rfl
  · exact writeReg_toggled ..

theorem memWrite_toggled (addr : Word) (width : Width) (v : Word) (instr : Option Word) :
    (s.toggled debug m a f).memWrite addr width v instr =
      (s.memWrite addr width v instr).map (·.toggled debug m a f) := by
  unfold State.memWrite
  rw [checkAccess_toggled]
  split <;> rfl

theorem storeFrom_toggled (w : Word) (width : Width) (rs1 rs2 : RegIdx) (imm : Word) :
    (s.toggled debug m a f).storeFrom w width rs1 rs2 imm =
      (s.storeFrom w width rs1 rs2 imm).toggled debug m a f := by
  unfold State.storeFrom
  rw [effAddr_toggled, readReg_toggled, memWrite_toggled]
  cases s.memWrite (s.effAddr rs1 imm) width (s.readReg rs2) (some w) <;> rfl

theorem branchIf_toggled (c : BranchCond) (rs1 rs2 : RegIdx) (offset : Word) :
    (s.toggled debug m a f).branchIf c rs1 rs2 offset = (s.branchIf c rs1 rs2 offset).toggled debug m a f := by
  unfold State.branchIf
  rw [readReg_toggled, readReg_toggled]
  split <;> rfl

/-! ## The instructions and the step -/

/-- An instruction's next state is the same under every setting, with that setting. -/
theorem exec_toggled (i : Instr) :
    ∃ t, exec i s = .next t ∧ exec i (s.toggled debug m a f) = .next (t.toggled debug m a f) := by
  cases i with
  | lb | lh | lw | lbu | lhu => exact ⟨_, rfl, congrArg _ (loadInto_toggled ..)⟩
  | sb | sh | sw => exact ⟨_, rfl, congrArg _ (storeFrom_toggled ..)⟩
  | beq | bne | blt | bge | bltu | bgeu => exact ⟨_, rfl, congrArg _ (branchIf_toggled ..)⟩
  | jal | jalr => exact ⟨_, rfl, congrArg _ (writeReg_setPcNext_toggled ..)⟩
  | halt | fence | fenceI | ecall | ebreak => exact ⟨_, rfl, rfl⟩
  | lui | auipc | addi | slti | sltiu | xori | ori | andi | slli | srli | srai
  | add | sub | sll | slt | sltu | xor | srl | sra | or | and => exact ⟨_, rfl, congrArg _ (writeReg_toggled ..)⟩

variable {s}

/-- A step's next state is the same under every setting, with that setting. -/
theorem step_toggled {t : State} (h : step s = .next t) :
    step (s.toggled debug m a f) = .next (t.toggled debug m a f) := by
  obtain ⟨hn, rfl⟩ | ⟨hr, hs, rfl⟩ | ⟨hr, hs, ⟨g, hg, rfl⟩ | ⟨w, r, hw, hd, rfl⟩ | ⟨w, i, hw, hd, he⟩⟩ := step_cases h
  · exact step_terminal hn
  · exact step_of_sentinel hr hs
  · exact step_of_fetch_error (s := s.toggled debug m a f) hr hs hg
  · exact (step_of_fetch_ok (s := s.toggled debug m a f) hr hs hw).trans (runWord_error hd)
  · obtain ⟨u, hu, hut⟩ := exec_toggled s.advance debug m a f i
    cases hu.symm.trans he
    exact (step_of_fetch_ok (s := s.toggled debug m a f) hr hs hw).trans ((runWord_ok hd).trans hut)

end toggled

/-- Settles O41, by the cases of a step. -/
theorem togglesChangeNoStep : Obligations.TogglesChangeNoStep := by
  intro s debug m a f
  obtain ⟨t, ht⟩ := step_next s
  exact ⟨t, ht, step_toggled debug m a f ht⟩

end Sys2Proof.Machine

/-! PROOF. 40_fetch_dispatch_cycle.md: every run of every constructed machine keeps the invariant (R123, R129). -/

namespace Sys2Proof.Machine

/-- A constructed machine meets the invariant: it is running at its entry point, and its memory is the image, written below
the capacity. -/
theorem construct_inv {c : Config} {image : Option (List Byte)} {s : State} (hc : c.wf)
    (h : construct c image = .ok s) : s.Inv := by
  obtain ⟨bytes, -, hfits, rfl⟩ := construct_eq_ok h
  exact
    { cfgWf := hc
      memWf := setBytes_wf reset_mem_wf _ _
      memWithin := setBytes_within (List.forall_mem_nil _) _ _ hfits
      evenPc := fun he => ⟨he, he⟩
      ending := endingTrue_of_running rfl }

/-- What every step keeps, every run keeps. -/
theorem run_keeps {P : State → Prop} (hstep : ∀ {s t}, P s → step s = .next t → P t) {n : Nat} {s t : State} (hs : P s)
    (h : Host.Core.run core n s = .next t) : P t := by
  induction n generalizing s with
  | zero => cases h; exact hs
  | succ n ih =>
    obtain ⟨u, hu⟩ := step_next s
    exact ih (hstep hs hu) ((run_succ (M := core) hu n).symm.trans h)

/-- Settles O46: construction establishes the invariant and every step keeps it. -/
theorem everyRunKeepsTheInvariant : Obligations.EveryRunKeepsTheInvariant :=
  fun _ _ _ _ _ hc hconstruct => run_keeps step_inv (construct_inv hc hconstruct)

end Sys2Proof.Machine

/-! PROOF. 41_alu_immediate.md: what the register-immediate instructions write (R141 to R150). -/

namespace Sys2Proof.Machine

/-- An instruction whose meaning is one register write changes that register and nothing else (R9, R22). -/
theorem regWrite_of_exec {i : Instr} {s : State} {rd : RegIdx} {x v : Word} (he : exec i s = .next (s.writeReg rd x))
    (hx : x = v) : ∃ t, exec i s = .next t ∧ RegWrite s t rd v :=
  ⟨_, he, hx ▸ regWrite_writeReg s rd x⟩

/-- The words of a class and funct3 have no handler where the class lists none for them (R94, R95). -/
theorem no_handler_of_mask {w v : Word} (c : OpClass) (hw : w &&& 0x707F#32 = v)
    (h : noHandlerIn (fieldFunct3 v) (fieldFunct7 w) c) (hv : v &&& 0x707F#32 = v := by rfl)
    (hc : fieldOpcode v = c.code := by rfl) : hasHandler w = false := by
  obtain ⟨h0, h3⟩ := (mask_funct3 hv).1 hw
  rw [hasHandler_in_class (h0.trans hc), dispatchIn_isOk, h3]
  exact h

theorem not_mem_funct7_pair {f7 : BitVec 7} (h0 : f7 ≠ 0x00#7) (h20 : f7 ≠ 0x20#7) : f7 ∉ [0x00#7, 0x20#7] :=
  fun h => (List.mem_pair.1 h).elim h0 h20

/-- The ALU's five bits of amount hold the whole of `w[24:20]` (R140, R147). -/
theorem shamt_mod_32 (shamt : BitVec 5) : (shamt.setWidth 32).toNat % 32 = shamt.toNat := by
  have h := shamt.isLt
  rw [BitVec.toNat_setWidth]
  omega

/-- Settles O22: the rows' words, and the arithmetic of each ALU operation. -/
theorem immediateAluResults : Obligations.ImmediateAluResults := by
  obtain ⟨addi, slti, sltiu, xori, ori, andi⟩ := encodedAs_opImm
  exact ⟨addi, slti, sltiu, xori, ori, andi, fun s rd rs1 imm =>
    ⟨regWrite_of_exec rfl (alu_add ..), regWrite_of_exec rfl (alu_slt ..), regWrite_of_exec rfl (alu_sltu ..),
      regWrite_of_exec (x := alu .xor _ imm) rfl rfl, regWrite_of_exec (x := alu .or _ imm) rfl rfl,
      regWrite_of_exec (x := alu .and _ imm) rfl rfl⟩⟩

/-- Settles O23: the rows' words, the funct7 values OP-IMM lists, and the ALU's shifts by the amount of the word. -/
theorem immediateShiftResults : Obligations.ImmediateShiftResults := by
  obtain ⟨slli, srli, srai⟩ := encodedAs_shiftImm
  refine ⟨slli, srli, srai, fun w hw h0 h20 => no_handler_of_mask .opImm hw ⟨rfl, not_mem_funct7_pair h0 h20⟩,
    fun s rd rs1 shamt => ⟨regWrite_of_exec rfl ?_, regWrite_of_exec rfl ?_, regWrite_of_exec rfl ?_⟩⟩
  · rw [alu_sll, shamt_mod_32]
  · rw [alu_srl, shamt_mod_32]
  · rw [alu_sra, shamt_mod_32]

end Sys2Proof.Machine

/-! PROOF. 42_alu_register.md: what the register-register instructions write (R161 to R170). -/

namespace Sys2Proof.Machine

/-- Settles O24: the rows' words, the funct7 values OP lists at funct3 `000`, and the arithmetic of each ALU operation. -/
theorem registerAluResults : Obligations.RegisterAluResults := by
  obtain ⟨add, sub, -, -⟩ := encodedAs_op_funct7
  obtain ⟨-, slt, sltu, xor, or, and⟩ := encodedAs_op_funct3
  exact ⟨add, sub, slt, sltu, xor, or, and,
    fun w hw h0 h20 => no_handler_of_mask .op hw ⟨by decide, not_mem_funct7_pair h0 h20⟩, fun s rd rs1 rs2 =>
    ⟨regWrite_of_exec rfl (alu_add ..), regWrite_of_exec rfl (alu_sub ..), regWrite_of_exec rfl (alu_slt ..),
      regWrite_of_exec rfl (alu_sltu ..), regWrite_of_exec (x := alu .xor _ (s.readReg rs2)) rfl rfl,
      regWrite_of_exec (x := alu .or _ (s.readReg rs2)) rfl rfl,
      regWrite_of_exec (x := alu .and _ (s.readReg rs2)) rfl rfl⟩⟩

/-- Settles O25: the rows' words, the funct7 values OP lists at funct3 `101`, and the ALU's shifts, whose amount is the
second operand mod 32. -/
theorem registerShiftResults : Obligations.RegisterShiftResults := by
  obtain ⟨sll, -⟩ := encodedAs_op_funct3
  obtain ⟨-, -, srl, sra⟩ := encodedAs_op_funct7
  exact ⟨sll, srl, sra, fun w hw h0 h20 => no_handler_of_mask .op hw ⟨by decide, not_mem_funct7_pair h0 h20⟩,
    fun s rd rs1 rs2 =>
    ⟨regWrite_of_exec rfl (alu_sll ..), regWrite_of_exec rfl (alu_srl ..), regWrite_of_exec rfl (alu_sra ..)⟩⟩

end Sys2Proof.Machine

/-! PROOF. 43_loads.md: the effective address (R180), what each load writes (R181 to R185), and how a load faults. -/

namespace Sys2Proof.Machine

/-! ## The effective address -/

/-- Settles O18: a word is the residue of its signed reading, and residues add. -/
theorem effectiveAddressWraps : Obligations.EffectiveAddressWraps := by
  intro s rs1 imm
  have hsum : s.effAddr rs1 imm = BitVec.ofInt 32 (signed (s.readReg rs1) + signed imm) := by
    rw [State.effAddr, BitVec.ofInt_add, BitVec.ofInt_toInt, BitVec.ofInt_toInt]
  rw [hsum, BitVec.toNat_ofInt]
  exact Int.toNat_of_nonneg (Int.emod_nonneg _ (by decide))

/-! ## A load in each case of its access -/

section loads
variable {i : Instr} {s : State} {w : Word} {width : Width} {extend : Word → Word} {rd rs1 : RegIdx} {imm : Word}
  (he : exec i s = .next (s.loadInto w width extend rd rs1 imm))
include he

theorem exec_load_misaligned (h : Misaligned s.cfg (s.effAddr rs1 imm) width.bytes) :
    exec i s = .next (s.takeFault (.unalignedAccess s.pc (s.effAddr rs1 imm) width .load (some w))) := by
  rw [he, State.loadInto, memRead_misaligned h]

theorem exec_load_pastEnd (h : PastEnd s.cfg (s.effAddr rs1 imm) width.bytes) :
    exec i s = .next (s.takeFault (.outOfBounds s.pc (s.effAddr rs1 imm) width .load (some w))) := by
  rw [he, State.loadInto, memRead_pastEnd h]

/-- A load whose access passes the checks writes the extended value of the bytes read and nothing else (R180). -/
theorem regWrite_of_load {v : Word} (h : AccessOk s.cfg (s.effAddr rs1 imm) width.bytes)
    (hv : extend (BitVec.ofNat 32 (valueLE (Memory.getBytes s.mem (s.effAddr rs1 imm).toNat width.bytes))) = v) :
    ∃ t, exec i s = .next t ∧ RegWrite s t rd v :=
  regWrite_of_exec (by rw [he, State.loadInto, memRead_ok h]) hv

theorem takesUnaligned_of_load (h : Misaligned s.cfg (s.effAddr rs1 imm) width.bytes) :
    TakesUnaligned i s (s.effAddr rs1 imm) width :=
  ⟨_, _, exec_load_misaligned he h, rfl, _, _, _, rfl⟩

end loads

/-- Settles O19: each of the five loads takes the fault of its read, with its own word. -/
theorem loadsTakeAccessFaults : Obligations.LoadsTakeAccessFaults := by
  intro s rd rs1 imm ea i width hi
  have hload : ∃ extend, exec i s = .next (s.loadInto (encode i) width extend rd rs1 imm) := by
    simp only [List.mem_cons, List.not_mem_nil, or_false, Prod.mk.injEq] at hi
    obtain ⟨rfl, rfl⟩ | ⟨rfl, rfl⟩ | ⟨rfl, rfl⟩ | ⟨rfl, rfl⟩ | ⟨rfl, rfl⟩ := hi <;> exact ⟨_, rfl⟩
  obtain ⟨extend, he⟩ := hload
  exact ⟨fun h => ⟨_, exec_load_misaligned he h, statusOnly_takeFault s _⟩,
    fun h => ⟨_, exec_load_pastEnd he h, statusOnly_takeFault s _⟩⟩

/-! ## Extension of a loaded value -/

/-- Sign extension subtracts `2^n` from an `n`-bit value in the upper half of its range (R8). -/
theorem signExtend_setWidth_ofNat {n v : Nat} (hn : n ≤ 32) (hv : v < 2 ^ n) :
    ((BitVec.ofNat 32 v).setWidth n).signExtend 32 =
      BitVec.ofInt 32 (if 2 * v < 2 ^ n then (v : Int) else (v : Int) - (2 ^ n : Nat)) := by
  rw [BitVec.setWidth_ofNat_of_le hn, BitVec.signExtend, BitVec.toInt_eq_toNat_cond, BitVec.toNat_ofNat,
    Nat.mod_eq_of_lt hv]

theorem setWidth_setWidth_ofNat {n v : Nat} (hn : n ≤ 32) (hv : v < 2 ^ n) :
    ((BitVec.ofNat 32 v).setWidth n).setWidth 32 = BitVec.ofNat 32 v := by
  rw [BitVec.setWidth_ofNat_of_le hn, BitVec.setWidth_ofNat_of_le_of_lt hn hv]

theorem sextByte_ofNat {v : Nat} (hv : v < 256) :
    sextByte (BitVec.ofNat 32 v) = BitVec.ofInt 32 (if v < 128 then (v : Int) else (v : Int) - 256) := by
  refine (signExtend_setWidth_ofNat (n := 8) (by decide) hv).trans (congrArg _ ?_)
  exact if_congr (by omega) rfl rfl

theorem sextHalf_ofNat {v : Nat} (hv : v < 65536) :
    sextHalf (BitVec.ofNat 32 v) = BitVec.ofInt 32 (if v < 32768 then (v : Int) else (v : Int) - 65536) := by
  refine (signExtend_setWidth_ofNat (n := 16) (by decide) hv).trans (congrArg _ ?_)
  exact if_congr (by omega) rfl rfl

theorem zextByte_ofNat {v : Nat} (hv : v < 256) : zextByte (BitVec.ofNat 32 v) = BitVec.ofNat 32 v :=
  setWidth_setWidth_ofNat (n := 8) (by decide) hv

theorem zextHalf_ofNat {v : Nat} (hv : v < 65536) : zextHalf (BitVec.ofNat 32 v) = BitVec.ofNat 32 v :=
  setWidth_setWidth_ofNat (n := 16) (by decide) hv

/-! ## What each load writes -/

/-- Every address is a multiple of 1 (R52). -/
theorem not_misaligned_byte (c : Config) (addr : Word) : ¬ Misaligned c addr 1 :=
  fun h => h.2 (Nat.mod_one _)

/-- Settles O15: the rows' words, and the extension of the one byte read. -/
theorem byteLoadsExtendTheByte : Obligations.ByteLoadsExtendTheByte := by
  obtain ⟨lb, -, -, lbu, -⟩ := encodedAs_load
  refine ⟨lb, lbu, fun s _ _ => not_misaligned_byte s.cfg _, fun s rd rs1 imm hok => ?_⟩
  intro v
  have hread : valueLE (Memory.getBytes s.mem (s.effAddr rs1 imm).toNat 1) = v := valueLE_getBytes_one _ _
  have hv : v < 256 := BitVec.isLt _
  exact ⟨regWrite_of_load (width := .byte) rfl hok (hread ▸ sextByte_ofNat hv),
    regWrite_of_load (width := .byte) rfl hok (hread ▸ zextByte_ofNat hv)⟩

/-- Settles O16: the rows' words, the fault of a misaligned read, and the extension of the two bytes read. -/
theorem halfLoadsExtendTheHalfword : Obligations.HalfLoadsExtendTheHalfword := by
  obtain ⟨-, lh, -, -, lhu⟩ := encodedAs_load
  refine ⟨lh, lhu, fun s rd rs1 imm h => ⟨takesUnaligned_of_load rfl h, takesUnaligned_of_load rfl h⟩,
    fun s rd rs1 imm hok => ?_⟩
  intro a v
  have hread : valueLE (Memory.getBytes s.mem a 2) = v := valueLE_getBytes_two _ _
  have hlo := (Memory.get s.mem a).isLt
  have hhi := (Memory.get s.mem (a + 1)).isLt
  have hv : v < 65536 := by omega
  exact ⟨regWrite_of_load (width := .half) rfl hok (hread ▸ sextHalf_ofNat hv),
    regWrite_of_load (width := .half) rfl hok (hread ▸ zextHalf_ofNat hv)⟩

/-- Settles O17: the row's words, the fault of a misaligned read, and the four bytes read as one word. -/
theorem wordLoadWritesTheWord : Obligations.WordLoadWritesTheWord := by
  obtain ⟨-, -, lw, -, -⟩ := encodedAs_load
  exact ⟨lw, fun s rd rs1 imm h => takesUnaligned_of_load rfl h, fun s rd rs1 imm hok =>
    regWrite_of_load (width := .word) rfl hok (word_getBytes_four s.mem _)⟩

end Sys2Proof.Machine

/-! PROOF. 44_stores.md: what each store writes (R190 to R193), and how a store faults. -/

namespace Sys2Proof.Machine

/-! ## A store in each case of its access -/

section stores
variable {i : Instr} {s : State} {w : Word} {width : Width} {rs1 rs2 : RegIdx} {imm : Word}
  (he : exec i s = .next (s.storeFrom w width rs1 rs2 imm))
include he

theorem exec_store_misaligned (h : Misaligned s.cfg (s.effAddr rs1 imm) width.bytes) :
    exec i s = .next (s.takeFault (.unalignedAccess s.pc (s.effAddr rs1 imm) width .store (some w))) := by
  rw [he, State.storeFrom, memWrite_misaligned h]

theorem exec_store_pastEnd (h : PastEnd s.cfg (s.effAddr rs1 imm) width.bytes) :
    exec i s = .next (s.takeFault (.outOfBounds s.pc (s.effAddr rs1 imm) width .store (some w))) := by
  rw [he, State.storeFrom, memWrite_pastEnd h]

theorem exec_store_ok (h : AccessOk s.cfg (s.effAddr rs1 imm) width.bytes) :
    exec i s = .next (s.setMem (Memory.setBytes s.mem (s.effAddr rs1 imm).toNat
      (bytesLE width.bytes (s.readReg rs2).toNat))) := by
  rw [he, State.storeFrom, memWrite_ok h]

/-- A store whose access passes the checks writes the low bytes of `x[rs2]` and nothing else (R190). -/
theorem bytesStored_of_store {bs : List Byte} (h : AccessOk s.cfg (s.effAddr rs1 imm) width.bytes)
    (hbs : List.ofFn (n := width.bytes) (fun k => (s.readReg rs2).extractLsb' (8 * k.val) 8) = bs) :
    ∃ t, exec i s = .next t ∧ BytesStored s t (s.effAddr rs1 imm).toNat bs :=
  ⟨_, exec_store_ok he h, by rw [bytesLE_eq_ofFn, hbs]; exact bytesStored_setBytes s _ _⟩

theorem takesUnaligned_of_store (h : Misaligned s.cfg (s.effAddr rs1 imm) width.bytes) :
    TakesUnaligned i s (s.effAddr rs1 imm) width :=
  ⟨_, _, exec_store_misaligned he h, rfl, _, _, _, rfl⟩

end stores

/-- Settles O21: each of the three stores takes the fault of its write, with its own word. -/
theorem storesTakeAccessFaults : Obligations.StoresTakeAccessFaults := by
  intro s rs1 rs2 imm ea i width hi
  have he : exec i s = .next (s.storeFrom (encode i) width rs1 rs2 imm) := by
    simp only [List.mem_cons, List.not_mem_nil, or_false, Prod.mk.injEq] at hi
    obtain ⟨rfl, rfl⟩ | ⟨rfl, rfl⟩ | ⟨rfl, rfl⟩ := hi <;> rfl
  exact ⟨fun h => ⟨_, exec_store_misaligned he h, statusOnly_takeFault s _⟩,
    fun h => ⟨_, exec_store_pastEnd he h, statusOnly_takeFault s _⟩⟩

/-! ## What each store writes -/

/-- Settles O20: the rows' words, the fault of a misaligned write, and the one, two or four low bytes written. -/
theorem storesWriteLowBytes : Obligations.StoresWriteLowBytes := by
  obtain ⟨sb, sh, sw⟩ := encodedAs_store
  refine ⟨sb, sh, sw, fun s rs1 rs2 imm => ?_⟩
  intro ea v
  exact ⟨not_misaligned_byte s.cfg ea, fun h => takesUnaligned_of_store rfl h, fun h => takesUnaligned_of_store rfl h,
    fun hok => bytesStored_of_store (width := .byte) rfl hok rfl,
    fun hok => bytesStored_of_store (width := .half) rfl hok rfl,
    fun hok => bytesStored_of_store (width := .word) rfl hok rfl⟩

end Sys2Proof.Machine

/-! PROOF. 45_branches.md: when each branch is taken (R201 to R206), and what a branch changes (R200). -/

namespace Sys2Proof.Machine

/-! ## The six conditions, as comparisons of numbers -/

section conditions
variable (a b : Word)

theorem holds_eq_iff : BranchCond.eq.holds a b = true ↔ a.toNat = b.toNat :=
  decide_eq_true_iff.trans BitVec.toNat_inj.symm

theorem holds_ne_iff : BranchCond.ne.holds a b = true ↔ ¬ a.toNat = b.toNat := by
  rw [← holds_eq_iff, Bool.not_eq_true]
  exact iff_of_eq (Bool.not_eq_true' _)

theorem holds_lt_iff : BranchCond.lt.holds a b = true ↔ signed a < signed b := decide_eq_true_iff

/-- BGE is the complement of BLT (R204). -/
theorem holds_ge_iff : BranchCond.ge.holds a b = true ↔ signed b ≤ signed a := by
  rw [← Int.not_lt, ← holds_lt_iff, Bool.not_eq_true]
  exact iff_of_eq (Bool.not_eq_true' _)

theorem holds_ltu_iff : BranchCond.ltu.holds a b = true ↔ a.toNat < b.toNat := decide_eq_true_iff

/-- BGEU is the complement of BLTU (R206). -/
theorem holds_geu_iff : BranchCond.geu.holds a b = true ↔ b.toNat ≤ a.toNat := by
  rw [← Nat.not_lt, ← holds_ltu_iff, Bool.not_eq_true]
  exact iff_of_eq (Bool.not_eq_true' _)

end conditions

/-! ## What a branch changes -/

theorem branchTo_setPcNext (s : State) (target : Word) : BranchTo s (s.setPcNext target) target where
  regs _ := rfl
  pc := rfl
  pcNext := rfl
  mem _ := rfl
  status := rfl
  cfg := rfl

/-- The default advance is a branch to where the state goes anyway. -/
theorem branchTo_self (s : State) : BranchTo s s s.pcNext := branchTo_setPcNext s s.pcNext

/-- An instruction whose meaning is a branch goes to `pc + offset` if its condition holds, keeps the default advance
otherwise, and changes nothing else (R200). -/
theorem branchTo_of_exec {i : Instr} {s : State} {c : BranchCond} {rs1 rs2 : RegIdx} {offset : Word} {p : Prop} [Decidable p]
    (he : exec i s = .next (s.branchIf c rs1 rs2 offset)) (hp : c.holds (s.readReg rs1) (s.readReg rs2) = true ↔ p) :
    ∃ t, exec i s = .next t ∧
      BranchTo s t (if p then BitVec.ofNat 32 ((s.pc.toNat + offset.toNat) % 2 ^ 32) else s.pcNext) := by
  refine ⟨_, he, ?_⟩
  have htarget : s.pc + offset = BitVec.ofNat 32 ((s.pc.toNat + offset.toNat) % 2 ^ 32) := alu_add s.pc offset
  rcases branchIf_cases s c rs1 rs2 offset with ⟨hc, ht⟩ | ⟨hc, ht⟩
  · rw [ht, if_pos (hp.1 hc), ← htarget]
    exact branchTo_setPcNext s _
  · rw [ht, if_neg fun h => Bool.eq_false_iff.1 hc (hp.2 h)]
    exact branchTo_self s

/-- Settles O14: the rows' words, and the comparison of numbers that each condition is. -/
theorem branchesFollowTheirConditions : Obligations.BranchesFollowTheirConditions := by
  obtain ⟨beq, bne, blt, bge, bltu, bgeu⟩ := encodedAs_branch
  refine ⟨beq, bne, blt, bge, bltu, bgeu, fun s rs1 rs2 offset => ?_⟩
  intro a b taken
  have hbne : ∃ t, exec (.bne rs1 rs2 offset) s = .next t ∧
      BranchTo s t (if ¬ a.toNat = b.toNat then taken else s.pcNext) := branchTo_of_exec rfl (holds_ne_iff a b)
  rw [ite_not] at hbne
  exact ⟨branchTo_of_exec rfl (holds_eq_iff a b), hbne, branchTo_of_exec rfl (holds_lt_iff a b),
    branchTo_of_exec rfl (holds_ge_iff a b), branchTo_of_exec rfl (holds_ltu_iff a b),
    branchTo_of_exec rfl (holds_geu_iff a b)⟩

end Sys2Proof.Machine

/-! PROOF. 46_jumps.md: the link, the target and the frame of JAL and JALR (R210, R211). -/

namespace Sys2Proof.Machine

/-! ## Link and targets, as sums modulo 2^32 -/

theorem linkValue_eq_ofNat (s : State) : s.linkValue = BitVec.ofNat 32 ((s.pc.toNat + 4) % 2 ^ 32) := alu_add s.pc 4#32

theorem pcRel_eq_ofNat (s : State) (offset : Word) :
    s.pcRel offset = BitVec.ofNat 32 ((s.pc.toNat + offset.toNat) % 2 ^ 32) := alu_add s.pc offset

/-- Clearing bit 0 of the sum rounds it down to an even number (R211). -/
theorem jalrTarget_eq_ofNat (s : State) (rs1 : RegIdx) (imm : Word) :
    s.jalrTarget rs1 imm = BitVec.ofNat 32 (((s.readReg rs1).toNat + imm.toNat) % 2 ^ 32 / 2 * 2) := by
  rw [State.jalrTarget, clear_bit0, BitVec.toNat_add]

/-! ## What a jump changes -/

/-- A register write followed by a new `pc_next` is a jump that links. -/
theorem linkJump_of_regWrite {s t : State} {rd : RegIdx} {link : Word} (h : RegWrite s t rd link) (target : Word) :
    LinkJump s (t.setPcNext target) rd link target where
  value := h.value
  others := h.others
  pc := h.pc
  pcNext := rfl
  mem := h.mem
  status := h.status
  cfg := h.cfg

/-- An instruction that writes the link to `x[rd]` and sends `pc_next` to a target computed from the state before it jumps
there with the link `pc + 4`, and changes nothing else, also when `x[rd]` is read for the target (R210, R211). -/
theorem linkJump_of_exec {i : Instr} {s : State} {rd : RegIdx} {p target : Word}
    (he : exec i s = .next ((s.writeReg rd s.linkValue).setPcNext p)) (hp : p = target) :
    ∃ t, exec i s = .next t ∧ LinkJump s t rd (BitVec.ofNat 32 ((s.pc.toNat + 4) % 2 ^ 32)) target := by
  refine ⟨_, he, ?_⟩
  rw [hp, ← linkValue_eq_ofNat]
  exact linkJump_of_regWrite (regWrite_writeReg s rd _) target

/-- Settles O13: the row's words, and the target of the state before the link is written, with bit 0 cleared. -/
theorem jalrLinksAndJumpsByTheOldRegister : Obligations.JalrLinksAndJumpsByTheOldRegister :=
  ⟨encodedAs_jumps.2, fun s _ rs1 imm => linkJump_of_exec rfl (jalrTarget_eq_ofNat s rs1 imm)⟩

/-- Settles O12: the row's words, and the target relative to the JAL's own address. -/
theorem jalLinksAndJumps : Obligations.JalLinksAndJumps :=
  ⟨encodedAs_jumps.1, fun s _ offset => linkJump_of_exec rfl (pcRel_eq_ofNat s offset)⟩

end Sys2Proof.Machine

/-! PROOF. 47_upper_immediate.md: what LUI and AUIPC write (R220, R221). -/

namespace Sys2Proof.Machine

/-- Settles O10: the row's words, and one register write of the immediate. -/
theorem luiWritesTheImmediate : Obligations.LuiWritesTheImmediate :=
  ⟨encodedAs_upper.1, fun _ _ _ => regWrite_of_exec rfl rfl⟩

/-- Settles O11: the row's words, and one register write of the sum relative to the AUIPC's own address. -/
theorem auipcWritesPcPlusImmediate : Obligations.AuipcWritesPcPlusImmediate :=
  ⟨encodedAs_upper.2, fun s _ imm => regWrite_of_exec rfl (pcRel_eq_ofNat s imm)⟩

end Sys2Proof.Machine

/-! PROOF. 48_halt_and_unimplemented.md: the stop on the zero word (R230), and the rows without a handler (R231, R232). -/

namespace Sys2Proof.Machine

/-- Four zero bytes are fetched as the zero word (R122). -/
theorem fetch_zero {s : State} (hok : AccessOk s.cfg s.pc 4) (h : ∀ k < 4, Memory.get s.mem (s.pc.toNat + k) = 0#8) :
    s.fetch = .ok 0#32 := by
  have h0 : Memory.get s.mem s.pc.toNat = 0#8 := h 0 (by decide)
  rw [fetch_ok hok, word_getBytes_four, h0, h 1 (by decide), h 2 (by decide), h 3 (by decide)]
  rfl

/-- Settles O26: HALT changes the status alone, and a cycle that fetches the zero word does so in the advanced state. -/
theorem haltWordStopsTheRun : Obligations.HaltWordStopsTheRun := by
  refine ⟨rfl, fun s => ⟨_, rfl, statusOnly_setStatus s _⟩, fun s hr hs hok hzero => ?_⟩
  have hfetch : s.advance.fetch = .ok 0#32 := fetch_zero (s := s.advance) hok hzero
  exact (step_of_fetch_ok hr hs hfetch).trans (runWord_zero s.advance)

/-- An instruction without a handler takes IllegalInstruction of its own word and changes nothing else (R244). -/
theorem statusOnly_of_no_handler {i : Instr} (h : i.hasHandler = false) (s : State) :
    ∃ t, exec i s = .next t ∧ StatusOnly s t (.faulted (.illegalInstruction s.pc (encode i))) :=
  ⟨_, exec_of_no_handler h s, statusOnly_takeFault s _⟩

/-- Settles O27: the rows' words, and that none of the four has a handler. -/
theorem unimplementedRowsRaiseIllegalInstruction : Obligations.UnimplementedRowsRaiseIllegalInstruction := by
  obtain ⟨fence, fenceI, ecall, ebreak⟩ := encodedAs_noHandler
  exact ⟨fence, fenceI, ecall, ebreak, fun s hi lo =>
    ⟨statusOnly_of_no_handler (i := .fence hi lo) rfl s, statusOnly_of_no_handler (i := .fenceI hi lo) rfl s,
      statusOnly_of_no_handler (i := .ecall) rfl s, statusOnly_of_no_handler (i := .ebreak) rfl s⟩⟩

end Sys2Proof.Machine

/-! PROOF. 60_exceptions.md: what a fault's record says of the state it left (R241 to R244), what a fault leaves unchanged
(R247), and that no step leaves a fault behind (R246, R249). -/

namespace Sys2Proof.Machine

/-! ## The state a fault leaves -/

theorem faultTrue_of_endingTrue {s : State} {f : Fault} (hs : EndingTrue s) (hf : s.status = .faulted f) :
    FaultTrue s f := by
  unfold EndingTrue at hs
  rw [hf] at hs
  exact hs.2

/-- Settles O39: a running machine ends truthfully whatever it has met, every step keeps that, and the ending of a faulted
machine is its record. -/
theorem faultRecordsTellTheTruth : Obligations.FaultRecordsTellTheTruth :=
  fun _ _ _ hr h hf => faultTrue_of_endingTrue (step_endingTrue (endingTrue_of_running hr) h) hf

/-- A fault taken is the fault recorded. -/
theorem takeFault_inj {s : State} {f g : Fault} (h : (s.takeFault g).status = .faulted f) :
    s.takeFault g = s.takeFault f := by
  cases h
  rfl

/-- An instruction that ends a running machine with a fault has done nothing but take it (R246). -/
theorem exec_faulted {i : Instr} {s t : State} {f : Fault} (hr : s.status = .running) (h : exec i s = .next t)
    (hf : t.status = .faulted f) : t = s.takeFault f := by
  cases effect_of_exec h with
  | write => rw [writeReg_status, hr] at hf; cases hf
  | jal => rw [setPcNext_status, writeReg_status, hr] at hf; cases hf
  | jalr => rw [setPcNext_status, writeReg_status, hr] at hf; cases hf
  | taken => rw [setPcNext_status, hr] at hf; cases hf
  | notTaken => rw [hr] at hf; cases hf
  | stored => rw [setMem_status, hr] at hf; cases hf
  | dataFault => exact takeFault_inj hf
  | illegal => exact takeFault_inj hf
  | halt => cases hf

/-- A step that ends a running machine with a fault advances the pc pair and takes the fault, whoever raises it: the fetch,
the dispatcher or the instruction (R246, R247). -/
theorem step_faulted {s t : State} {f : Fault} (hr : s.status = .running) (h : step s = .next t)
    (hf : t.status = .faulted f) : t = s.advance.takeFault f := by
  obtain ⟨hn, -⟩ | ⟨-, -, rfl⟩ | ⟨-, -, ⟨g, -, rfl⟩ | ⟨w, r, -, -, rfl⟩ | ⟨w, i, -, -, he⟩⟩ := step_cases h
  · exact absurd hr hn
  · cases hf
  · exact takeFault_inj hf
  · exact takeFault_inj hf
  · exact exec_faulted (s := s.advance) hr he hf

/-- Settles O38: the state left is the advanced state with the fault taken. -/
theorem faultsArePrecise : Obligations.FaultsArePrecise := by
  intro s t f hr h hf
  rw [step_faulted hr h hf]
  exact ⟨fun _ => rfl, fun _ => rfl, rfl, rfl⟩

/-! ## Runs -/

/-- Settles O37, by the cases of the cycle: the sentinel, a failing fetch, a fetched word, a terminal status. -/
theorem everyStepAnswersANextState : Obligations.EveryStepAnswersANextState := step_next

/-- Every run answers a next state (R246, log 4). -/
theorem run_next (n : Nat) (s : State) : ∃ t, Host.Core.run core n s = .next t := by
  induction n generalizing s with
  | zero => exact ⟨s, rfl⟩
  | succ n ih =>
    obtain ⟨u, hu⟩ := step_next s
    rw [run_succ (M := core) hu]
    exact ih u

/-- A run of `n + k` steps is a run of `k` steps from where `n` steps lead. -/
theorem run_add {n : Nat} {s t : State} (h : Host.Core.run core n s = .next t) (k : Nat) :
    Host.Core.run core (n + k) s = Host.Core.run core k t := by
  induction n generalizing s with
  | zero => cases h; rw [Nat.zero_add]
  | succ n ih =>
    obtain ⟨u, hu⟩ := step_next s
    rw [run_succ (M := core) hu] at h
    rw [Nat.add_right_comm, run_succ (M := core) hu, ih h]

/-- Settles O47: had the first `n` steps led to a fault, the `k` further steps would have stayed there. -/
theorem safeRunsAreSafeThroughout : Obligations.SafeRunsAreSafeThroughout := by
  rintro n k s ⟨t, ht, hsafe⟩
  obtain ⟨u, hu⟩ := run_next n s
  refine ⟨u, hu, fun f hf => ?_⟩
  have hfinal : Host.Core.run core k u = .next u := terminalStatusIsFinal k u (by rw [hf]; exact nofun)
  have htu : Host.Outcome.next t = .next u := ht.symm.trans ((run_add hu k).trans hfinal)
  cases htu
  exact hsafe f hf

end Sys2Proof.Machine

/-! PROOF. 70_reset_and_hazards.md: the state that construction and reset leave (R270 to R275), and what the host observes
(R278, R279). -/

namespace Sys2Proof.Machine

/-! ## Construction and reset -/

/-- Settles O44: a machine is made only where the image fits, so that memory lists no address past the capacity. -/
theorem constructionEstablishesTheInvariant : Obligations.ConstructionEstablishesTheInvariant :=
  fun _ _ _ => construct_inv

/-- Construction leaves 0 in every register from `x[3]` on (R34). -/
theorem initial_readReg_high (c : Config) (m : Memory) {r : RegIdx} (h : 3 ≤ r.val) :
    (State.initial c m).readReg r = 0#32 := by
  have hne {q : RegIdx} (hq : q.val < 3) : r ≠ q := fun he => absurd (he ▸ h) hq.not_ge
  rw [initial_readReg, if_neg (hne (q := 0) (by decide)), if_neg (hne (q := 1) (by decide)),
    if_neg (hne (q := 2) (by decide))]

/-- Settles O2: a constructed machine is the initial state over its image, and `SP_INIT` defaults to the capacity as a word. -/
theorem constructionSetsRegistersAndPc : Obligations.ConstructionSetsRegistersAndPc := by
  refine ⟨fun c image t h => ?_, fun capacity _ _ _ => BitVec.toNat_ofNat capacity 32⟩
  obtain ⟨bytes, -, -, rfl⟩ := construct_eq_ok h
  exact ⟨initial_readReg .., initial_readReg .., initial_readReg .., fun r => initial_readReg_high c _, rfl, rfl, rfl, rfl⟩

/-- Settles O4: the empty image fits, and the reset state is the initial state over the empty memory. -/
theorem resetIsReferenceConstruction : Obligations.ResetIsReferenceConstruction :=
  ⟨construct_fits (c := Config.reference) (image := []) (by decide), initial_readReg .., initial_readReg ..,
    rfl, rfl, rfl, fun _ => initial_readReg_high _ _, get_nil⟩

/-! ## What the host observes -/

section report
variable {s : State}

theorem report_running (h : s.status = .running) : s.report = .inProgress := by
  unfold State.report; rw [h]

theorem report_halted {cause : HaltCause} (h : s.status = .halted cause) : s.report = .halted cause s.snapshot := by
  unfold State.report; rw [h]

theorem report_faulted {f : Fault} (h : s.status = .faulted f) : s.report = .faulted f := by
  unfold State.report; rw [h]

end report

/-- Entry `i` of the snapshot's registers is `x[i]` (R279). -/
theorem snapshot_regs (s : State) (i : Fin 32) : s.snapshot.regs[i] = s.readReg i := Vector.getElem_ofFn ..

/-- Settles O42, by the three run statuses: each has a report of its own, and only that of Halted carries a snapshot. -/
theorem hostObservesTheSnapshot : Obligations.HostObservesTheSnapshot := by
  intro s
  cases hs : s.status with
  | running =>
    rw [report_running hs]
    exact ⟨iff_of_true rfl rfl, fun _ => iff_of_false nofun nofun, fun _ => iff_of_false nofun nofun, nofun⟩
  | halted cause =>
    rw [report_halted hs]
    refine ⟨iff_of_false nofun nofun, fun c => ⟨?_, ?_⟩, fun _ => iff_of_false nofun nofun, ?_⟩
    · rintro ⟨⟩; exact ⟨_, rfl⟩
    · rintro ⟨_, ⟨⟩⟩; rfl
    · rintro _ _ ⟨⟩; exact ⟨snapshot_regs s, fun _ => rfl, rfl⟩
  | faulted g =>
    rw [report_faulted hs]
    refine ⟨iff_of_false nofun nofun, fun _ => iff_of_false nofun nofun, fun f => ⟨?_, ?_⟩, nofun⟩
    · rintro ⟨⟩; rfl
    · rintro ⟨⟩; rfl

end Sys2Proof.Machine

/-! PROOF. 30_encoding.md, opening: the rows of the opcode table are mutually exclusive. -/

namespace Sys2Proof.Machine

theorem opcodeTable_mnemonics_nodup : (opcodeTable.map TableRow.mnemonic).Nodup := by decide

/-- Settles O51: a word has one decoding, whose mnemonic is that of every row the word selects, and no two rows share a
mnemonic. -/
theorem noWordSelectsTwoRows : Obligations.NoWordSelectsTwoRows := by
  intro w r q hr hq hwr hwq
  have hmnemonic : some r.mnemonic = some q.mnemonic :=
    (every_row_decodes r hr w hwr).symm.trans (every_row_decodes q hq w hwq)
  exact List.inj_on_of_nodup_map opcodeTable_mnemonics_nodup hr hq (Option.some.inj hmnemonic)

end Sys2Proof.Machine
